-- ==== Sys2Proof/Word.lean ====
section
/-! DEFINITION. The words of GF2DIV: register words, 64-bit operands, command fields, bus fields
(00_scope.md R7, R10). -/

namespace Sys2Proof

/-- A 32-bit register word, and a command word (10_state.md R20, 30_encoding.md R70). -/
abbrev Word := BitVec 32

/-- A 64-bit register or working value (10_state.md R21, R41). -/
abbrev DWord := BitVec 64

/-- The SIZE field: a degree or a width (30_encoding.md R73). -/
abbrev Size := BitVec 7

/-- A byte offset in the 256-byte window (20_memory.md R50). -/
abbrev Offset := BitVec 8

/-- Write byte strobes (20_memory.md R51). -/
abbrev Strobes := BitVec 4

end Sys2Proof
end

