-- ==== Sys2Proof/Syntax.lean ====
section
/-! DEFINITION. The commands of GF2DIV: one constructor per row of spec/opcode_table.json. -/

namespace Sys2Proof

/-- The SRC field of REFLECT (30_encoding.md R74). Its fourth value is encodable and rejected with ECODE 5. -/
inductive Src where
  | val | rem | quo | reserved
  deriving DecidableEq, Repr

/-- A command word whose opcode is legal and whose reserved bits are 0. SIZE and SRC are as encoded, so that the values
that the command itself rejects (ECODE 3, 4 and 5, 60_exceptions.md R142) are instructions too: see log 12. -/
inductive Instr where
  /-- MODRED: remainder and quotient of x^N by x^d + POLY (42_modreduce.md R120). -/
  | modred (d : Size)
  /-- REFLECT: bit reversal within w bits of the operand that s selects (41_reflect.md R110). -/
  | reflect (w : Size) (s : Src)
  deriving DecidableEq, Repr

end Sys2Proof
end

