-- ==== Sys2Proof/WellFormed.lean ====
section
/-! DEFINITION. The commands the assembler emits (30_encoding.md R81): the legal words of R76 and R77. -/

namespace Sys2Proof

/-- 1 to 64: the legal degrees and widths (30_encoding.md R73). -/
def sizeLegal (z : Size) : Bool := decide (1 ≤ z.toNat) && decide (z.toNat ≤ 64)

/-- Well-formed: SIZE in 1..64 and, for REFLECT, SRC one of VAL, REM, QUO. -/
def Instr.wellFormed : Instr → Bool
  | .modred d => sizeLegal d
  | .reflect w s => sizeLegal w && decide (s ≠ .reserved)

end Sys2Proof
end

