-- ==== Sys2Proof/Decode.lean ====
section
/-! DEFINITION. The command word: fields, decoder, encoder (30_encoding.md R70 to R79). -/

namespace Sys2Proof

/-- Why a word is no instruction: the two rejections that come before SIZE and SRC are looked at (30_encoding.md R78). -/
inductive DecodeError where
  /-- OPC is not 0x1 or 0x2: ECODE 1. -/
  | illop
  /-- A reserved bit is set: ECODE 2. -/
  | rsvd
  deriving DecidableEq, Repr

/-- OPC, `c[3:0]` (30_encoding.md R71). -/
def fieldOpc (c : Word) : BitVec 4 := c.extractLsb' 0 4

/-- SIZE, `c[10:4]`. -/
def fieldSize (c : Word) : Size := c.extractLsb' 4 7

/-- The reserved bit `c[11]`. -/
def fieldBit11 (c : Word) : BitVec 1 := c.extractLsb' 11 1

/-- SRC, `c[13:12]`. -/
def fieldSrc (c : Word) : BitVec 2 := c.extractLsb' 12 2

/-- The reserved bits `c[31:14]`. -/
def fieldHigh (c : Word) : BitVec 18 := c.extractLsb' 14 18

/-- SRC by name (30_encoding.md R74). -/
def Src.ofBits (b : BitVec 2) : Src :=
  if b = 0#2 then .val else if b = 1#2 then .rem else if b = 2#2 then .quo else .reserved

/-- SRC as encoded (30_encoding.md R74). -/
def Src.toBits : Src → BitVec 2
  | .val => 0#2
  | .rem => 1#2
  | .quo => 2#2
  | .reserved => 3#2

/-- The decoder: total, in the order of 30_encoding.md R78 (opcode, then reserved bits). -/
def decode (c : Word) : Except DecodeError Instr :=
  if fieldOpc c ≠ 1#4 ∧ fieldOpc c ≠ 2#4 then .error .illop
  else if fieldHigh c ≠ 0#18 ∨ fieldBit11 c ≠ 0#1 then .error .rsvd
  else if fieldOpc c = 1#4 then
    if fieldSrc c ≠ 0#2 then .error .rsvd else .ok (.modred (fieldSize c))
  else .ok (.reflect (fieldSize c) (Src.ofBits (fieldSrc c)))

/-- The encoder: `(d << 4) | 0x1` and `(s << 12) | (w << 4) | 0x2` (30_encoding.md R76, R77). -/
def encode : Instr → Word
  | .modred d => (d.setWidth 32 <<< 4) ||| 1#32
  | .reflect w s => (s.toBits.setWidth 32 <<< 12) ||| (w.setWidth 32 <<< 4) ||| 2#32

/-- The command word with bits `w` of an `nbits`-bit table row, the bits above `nbits` 0. -/
def tableWord (nbits w : Nat) : Word := BitVec.ofNat 32 (w % 2 ^ nbits)

/-- What the decoder reads from a table row's word. A command is one 32-bit word written whole (30_encoding.md R70),
so bit k of `w` is bit k of the word. -/
def decodeTableWord (nbits w : Nat) : Option Instr :=
  if nbits ≤ 32 then (decode (tableWord nbits w)).toOption else none

end Sys2Proof
end

