-- ==== Sys2Proof/Machine/Gf2.lean ====
section
/-! DEFINITION. The arithmetic of GF2DIV: mask, bit reflection, the division step and its closed form, and carry-less
multiplication (00_scope.md R12, 41_reflect.md R111, 42_modreduce.md R122, R124). -/

namespace Sys2Proof.Machine

/-- `mask(d)`, that is 2^d − 1 in 64 bits, all ones at d = 64 (00_scope.md R12). -/
def mask (d : Nat) : DWord := (1#64 <<< d) - 1#64

/-- `reflect(v, w)` for 1 ≤ w ≤ 64 (41_reflect.md R111): all 64 bits in reverse order, shifted down so that bit w − 1 of v
lands on bit 0; the bits of v at and above w fall off. -/
def reflect (v : DWord) (w : Nat) : DWord := v.reverse >>> (64 - w)

/-- A running remainder and quotient. -/
structure Division where
  rem : DWord
  quo : DWord
  deriving DecidableEq, Repr

/-- One iteration of the long division at degree d with masked modulus p (42_modreduce.md R122). -/
def divStep (d : Nat) (p : DWord) (x : Division) : Division :=
  let h := x.rem.getLsbD (d - 1)
  { rem := ((x.rem <<< 1) &&& mask d) ^^^ (if h then p else 0#64)
    quo := (x.quo <<< 1) ||| (if h then 1#64 else 0#64) }

/-- k iterations. -/
def divIter (d : Nat) (p : DWord) : Nat → Division → Division
  | 0, x => x
  | k + 1, x => divIter d p k (divStep d p x)

/-- What a MODRED writes at completion. -/
structure DivResult where
  rem : DWord
  quo : DWord
  trunc : Bool
  deriving DecidableEq, Repr

/-- `modReduce(n, poly, d)`, the closed form (42_modreduce.md R124). -/
def modReduce (n : Nat) (poly : DWord) (d : Nat) : DivResult :=
  let p := poly &&& mask d
  if n < d then { rem := p, quo := 0#64, trunc := false }
  else
    let x := divIter d p (n - d) { rem := p, quo := 1#64 }
    { rem := x.rem, quo := x.quo, trunc := decide (n - d ≥ 64) }

/-- The XOR of `a << i` over the i below `k` with `b[i]` = 1. -/
def clmulBelow (a b : Nat) : Nat → Nat
  | 0 => 0
  | k + 1 => clmulBelow a b k ^^^ (if b.testBit k then a <<< k else 0)

/-- `clmul(a, b)`, carry-less multiplication of unbounded width (00_scope.md R12): bits of b above its highest 1 add nothing. -/
def clmul (a b : Nat) : Nat := clmulBelow a b (b.log2 + 1)

end Sys2Proof.Machine
end

