-- ==== Sys2Proof/Config.lean ====
section
/-! DEFINITION. What the platform fixes and the spec leaves open (00_scope.md R7). Neither constant has a value
that a proof can see. -/

namespace Sys2Proof.Config

/-- P_BASE, the base of the window in the host's address map (20_memory.md R50, 92_eei_decisions.md D40). OPEN. -/
opaque pBase : Nat

/-- P_FCLK, the clock frequency (00_scope.md R7, 92_eei_decisions.md D41). OPEN; no rule depends on it. -/
opaque pFclk : Nat

end Sys2Proof.Config
end

