-- ==== Sys2Proof/Machine/State.lean ====
section
/-! DEFINITION. The state of GF2DIV as plain data: every register and working register of 10_state.md, and the outside
world's schedule of transactions, clock edges and resets. -/

namespace Sys2Proof.Machine

/-- W_OP, the command in flight (10_state.md R41, R42). -/
inductive WOp where
  | none | modred | reflect
  deriving DecidableEq, Repr

/-- STATUS.ECODE: the eight codes of 60_exceptions.md R141. -/
inductive ErrorCode where
  | none | illop | rsvd | baddeg | badwid | badsrc | busy | abort
  deriving DecidableEq, Repr

/-- The registers of the block (10_state.md R20 to R41). ID, CMD, ABORT and SRST hold no state (R22, R34, R26, R27). -/
structure Regs where
  /-- CTRL.DONE_IE (R24). -/
  doneIe : Bool
  /-- CTRL.ERR_IE (R25). -/
  errIe : Bool
  /-- STATUS.BUSY (R29). -/
  busy : Bool
  /-- STATUS.DONE (R30). -/
  done : Bool
  /-- STATUS.ERR (R31). -/
  err : Bool
  /-- STATUS.QTRUNC (R32). -/
  qtrunc : Bool
  /-- STATUS.ECODE (R33). -/
  ecode : ErrorCode
  /-- POLY (R35). -/
  poly : DWord
  /-- N (R36). -/
  n : Word
  /-- VAL (R37). -/
  val : DWord
  /-- REM (R38). -/
  rem : DWord
  /-- QUO (R39). -/
  quo : DWord
  /-- REFL (R40). -/
  refl : DWord
  /-- W_OP (R41, R42). -/
  wOp : WOp
  /-- W_POLY (R41). -/
  wPoly : DWord
  /-- W_DEG (R41). -/
  wDeg : Size
  /-- W_REM (R41). -/
  wRem : DWord
  /-- W_QUO (R41). -/
  wQuo : DWord
  /-- W_CNT (R41). -/
  wCnt : Word
  /-- W_TRUNC (R41). -/
  wTrunc : Bool
  /-- W_VAL (R41). -/
  wVal : DWord
  /-- W_WID (R41). -/
  wWid : Size
  deriving DecidableEq, Repr

/-- The reset values of 70_reset_and_hazards.md R160. -/
def Regs.reset : Regs where
  doneIe := false
  errIe := false
  busy := false
  done := false
  err := false
  qtrunc := false
  ecode := .none
  poly := 0#64
  n := 0#32
  val := 0#64
  rem := 0#64
  quo := 0#64
  refl := 0#64
  wOp := .none
  wPoly := 0#64
  wDeg := 0#7
  wRem := 0#64
  wQuo := 0#64
  wCnt := 0#32
  wTrunc := false
  wVal := 0#64
  wWid := 0#7

/-- A host transaction (20_memory.md R52). -/
inductive Transaction where
  | read (off : Offset)
  | write (off : Offset) (v : Word) (strb : Strobes)
  deriving DecidableEq, Repr

/-- The answer to a transaction (20_memory.md R52, R58). `slverr` is `pslverr`; a read that errs has `rdata` 0. -/
inductive Response where
  | read (slverr : Bool) (rdata : Word)
  | write (slverr : Bool)
  deriving DecidableEq, Repr

/-- The input ports at a rising clock edge (20_memory.md R51). -/
structure Pins where
  rstN : Bool
  psel : Bool
  penable : Bool
  pwrite : Bool
  paddr : Offset
  pwdata : Word
  pstrb : Strobes
  deriving DecidableEq, Repr

/-- What the outside world does next (00_scope.md R9). Which agent moves is data, so every interleaving is a list. -/
inductive Event where
  /-- The host agent takes one step: one transaction (20_memory.md R53). -/
  | host (t : Transaction)
  /-- The engine agent takes one step, if a command is in flight (40_host_access.md R101). -/
  | engine
  /-- One rising clock edge with these pins: host first, then engine (40_host_access.md R104). -/
  | edge (p : Pins)
  /-- The host's POLL loop, one STATUS read per clock cycle until BUSY reads 0 (30_encoding.md R83). -/
  | poll
  /-- `rst_n` goes to 0, at once (70_reset_and_hazards.md R162). -/
  | assertReset
  /-- The rising clock edge at which the deassertion of `rst_n` takes effect (R162). -/
  | releaseReset
  deriving DecidableEq, Repr

/-- The machine: the block's registers, whether reset is asserted, what happens next (oldest first) and the bus answers
so far (newest first). The last three are the model's own fields: log 1, 6, 7. -/
structure State where
  regs : Regs
  inReset : Bool
  inputs : List Event
  responses : List Response
  deriving DecidableEq, Repr

/-- Why the machine stops with a fault. -/
inductive Fault where
  /-- Raised by an engine step alone, in a sequencer state that no run reaches and for which the spec gives no step: BUSY = 1
  with W_OP = NONE, W_CNT ≠ 0 without a MODRED of degree 1..64, or a REFLECT of width outside 1..64 (against
  10_state.md R43). Safe: log 5. -/
  | sequencer
  deriving DecidableEq, Repr

/-- Why the machine has no meaning for what it is asked to do. -/
inductive Refusal where
  /-- An instruction without a meaning, by its mnemonic. Raised by no arm of this model. Safe. -/
  | notModelled (mnemonic : String)
  /-- Raised by a host transaction while `rst_n` = 0, which the block does not answer and the host must not start
  (70_reset_and_hazards.md R162, 93_implementation_defined.md V8: `refuse`). Safe: log 6. -/
  | transactionDuringReset
  deriving DecidableEq, Repr

/-- The outcome of a step of this machine. -/
abbrev Result := Host.Outcome State Fault Refusal

/-- Right after reset: every register at its value of 70_reset_and_hazards.md R160, reset released, nothing scheduled. -/
def State.reset : State where
  regs := Regs.reset
  inReset := false
  inputs := []
  responses := []

end Sys2Proof.Machine
end

