-- ==== Sys2Proof/Machine/Flags.lean ====
section
/-! DEFINITION. The words and outputs that are computed from flags: STATUS, CTRL, `irq`, `pready`. -/

namespace Sys2Proof.Machine

/-- The 3-bit code of an error (60_exceptions.md R141). -/
def ErrorCode.toBits : ErrorCode → BitVec 3
  | .none => 0#3
  | .illop => 1#3
  | .rsvd => 2#3
  | .baddeg => 3#3
  | .badwid => 4#3
  | .badsrc => 5#3
  | .busy => 6#3
  | .abort => 7#3

/-- One flag as bit 0 of a word. -/
def flagWord (b : Bool) : Word := if b then 1#32 else 0#32

/-- What a read of STATUS gives: `zext_32(ECODE << 4 | QTRUNC << 3 | ERR << 2 | DONE << 1 | BUSY)` (10_state.md R28). -/
def statusWord (r : Regs) : Word :=
  (r.ecode.toBits.setWidth 32 <<< 4) ||| (flagWord r.qtrunc <<< 3) ||| (flagWord r.err <<< 2) |||
    (flagWord r.done <<< 1) ||| flagWord r.busy

/-- What a read of CTRL gives: `zext_32(ERR_IE << 1 | DONE_IE)` (10_state.md R23). -/
def ctrlWord (r : Regs) : Word := (flagWord r.errIe <<< 1) ||| flagWord r.doneIe

/-- The interrupt output (10_state.md R44). -/
def irq (r : Regs) : Bool := (r.done && r.doneIe) || (r.err && r.errIe)

/-- `pready`: always 1, undriven (none) while `rst_n` = 0 (20_memory.md R51, 70_reset_and_hazards.md R162). -/
def pready (s : State) : Option Bool := if s.inReset then none else some true

end Sys2Proof.Machine
end

