-- ==== Sys2Proof/Machine/Operands.lean ====
section
/-! DEFINITION. The operands of commands and transactions: word halves, register names and offsets, the REFLECT source,
the routing of a transaction to what it accesses. -/

namespace Sys2Proof.Machine

/-- The word at the lower offset of a 64-bit register, bits [31:0] (10_state.md R21). -/
def loHalf (v : DWord) : Word := v.extractLsb' 0 32

/-- The word at offset + 4 of a 64-bit register, bits [63:32] (10_state.md R21). -/
def hiHalf (v : DWord) : Word := v.extractLsb' 32 32

/-- `{HI, LO}` (00_scope.md R10). -/
def joinHalves (hi lo : Word) : DWord := hi ++ lo

/-- `v[31:0] <- x`. -/
def setLo (v : DWord) (x : Word) : DWord := joinHalves (hiHalf v) x

/-- `v[63:32] <- x`. -/
def setHi (v : DWord) (x : Word) : DWord := joinHalves x (loHalf v)

/-- The operand that SRC selects, as it stands (30_encoding.md R74, 41_reflect.md R110). SRC = 3 selects none. -/
def srcOperand (r : Regs) : Src → Option DWord
  | .val => some r.val
  | .rem => some r.rem
  | .quo => some r.quo
  | .reserved => none

/-- The words of the operand registers, which a host write stores (40_host_access.md R92). -/
inductive OperandWord where
  | polyLo | polyHi | n | valLo | valHi
  deriving DecidableEq, Repr

/-- The words of the result registers, read-only (20_memory.md R60). -/
inductive ResultWord where
  | remLo | remHi | quoLo | quoHi | reflLo | reflHi
  deriving DecidableEq, Repr

/-- The mapped register words (10_state.md R20). -/
inductive RegName where
  | id | ctrl | status | cmd
  | operand (o : OperandWord)
  | result (w : ResultWord)
  deriving DecidableEq, Repr

/-- The byte offset of a register word (10_state.md R20, 30_encoding.md R82). -/
def RegName.offset : RegName → Offset
  | .id => 0x00#8
  | .ctrl => 0x04#8
  | .status => 0x08#8
  | .cmd => 0x0C#8
  | .operand .polyLo => 0x10#8
  | .operand .polyHi => 0x14#8
  | .operand .n => 0x18#8
  | .operand .valLo => 0x20#8
  | .operand .valHi => 0x24#8
  | .result .remLo => 0x28#8
  | .result .remHi => 0x2C#8
  | .result .quoLo => 0x30#8
  | .result .quoHi => 0x34#8
  | .result .reflLo => 0x38#8
  | .result .reflHi => 0x3C#8

/-- Every mapped register word, in the order of 10_state.md R20. -/
def RegName.all : List RegName :=
  [.id, .ctrl, .status, .cmd, .operand .polyLo, .operand .polyHi, .operand .n, .operand .valLo, .operand .valHi,
    .result .remLo, .result .remHi, .result .quoLo, .result .quoHi, .result .reflLo, .result .reflHi]

/-- The register word mapped at an offset; every other offset is unmapped (20_memory.md R59). -/
def RegName.ofOffset (off : Offset) : Option RegName := RegName.all.find? (fun g => g.offset = off)

/-- The causes of a bus error (60_exceptions.md R145). -/
inductive BusError where
  | misaligned | unmapped | strobes | readOnly
  deriving DecidableEq, Repr

/-- What a transaction that raises no bus error accesses. -/
inductive Access where
  | read (g : RegName)
  | writeCtrl (v : Word)
  | writeStatus (v : Word)
  | writeCmd (c : Word)
  | writeOperand (o : OperandWord) (v : Word)
  deriving DecidableEq, Repr

/-- The register word at an aligned, mapped offset: the checks that reads and writes share (20_memory.md R57, R59). -/
def locate (off : Offset) : Except BusError RegName :=
  if off.extractLsb' 0 2 ≠ 0#2 then .error .misaligned
  else
    match RegName.ofOffset off with
    | none => .error .unmapped
    | some g => .ok g

/-- A full-word write to a mapped register (20_memory.md R60, 40_host_access.md R91). -/
def writeAccess (g : RegName) (v : Word) : Except BusError Access :=
  match g with
  | .id => .error .readOnly
  | .result _ => .error .readOnly
  | .ctrl => .ok (.writeCtrl v)
  | .status => .ok (.writeStatus v)
  | .cmd => .ok (.writeCmd v)
  | .operand o => .ok (.writeOperand o v)

/-- The bus checks in the order of 40_host_access.md R90 and R91: misaligned, unmapped, strobes, read-only. -/
def route : Transaction → Except BusError Access
  | .read off =>
    match locate off with
    | .error e => .error e
    | .ok g => .ok (.read g)
  | .write off v strb =>
    match locate off with
    | .error e => .error e
    | .ok g => if strb ≠ 0b1111#4 then .error .strobes else writeAccess g v

/-- The transaction that ends at a clock edge: its access phase has `psel` and `penable` high, and `pready` is always 1
(20_memory.md R51, R52, R53). -/
def Pins.transaction? (p : Pins) : Option Transaction :=
  if p.psel && p.penable then
    some (if p.pwrite then .write p.paddr p.pwdata p.pstrb else .read p.paddr)
  else none

/-- The pins of the clock edge that ends a transaction's access phase. -/
def Pins.access : Transaction → Pins
  | .read off =>
    { rstN := true, psel := true, penable := true, pwrite := false, paddr := off, pwdata := 0#32, pstrb := 0#4 }
  | .write off v strb =>
    { rstN := true, psel := true, penable := true, pwrite := true, paddr := off, pwdata := v, pstrb := strb }

/-- The address in the host's map of a byte of the window whose base, P_BASE, is `base` (20_memory.md R50): log 10. -/
def hostAddress (base : Nat) (off : Offset) : Nat := base + off.toNat

/-- The offset in that window of an address of the host's map, if the window holds it (20_memory.md R50). -/
def windowOffset (base a : Nat) : Option Offset :=
  if base ≤ a ∧ a < base + 256 then some (BitVec.ofNat 8 (a - base)) else none

end Sys2Proof.Machine
end

