-- ==== Sys2Proof/Machine/Ops.lean ====
section
/-! DEFINITION. The operations that commands and transactions share: the error record, acceptance and completion, the
register writes and reads. -/

namespace Sys2Proof.Machine

/-- The same machine with other registers. -/
def State.setRegs (s : State) (r : Regs) : State := { s with regs := r }

/-- The same machine with one more bus answer. -/
def State.respond (s : State) (a : Response) : State := { s with responses := a :: s.responses }

/-- The same machine with this schedule. -/
def State.setInputs (s : State) (es : List Event) : State := { s with inputs := es }

/-- Go on with `f` from a next state; a fault or refusal stands. -/
def andThen (o : Result) (f : State → Result) : Result :=
  match o with
  | .next s => f s
  | .fault e => .fault e
  | .refused e => .refused e

/-- `Record(code)`: taking an error, which is only this record (60_exceptions.md R143, R147). The first code sticks. -/
def record (code : ErrorCode) (r : Regs) : Regs :=
  { r with ecode := if r.err then r.ecode else code, err := true }

/-- `StatusWrite(v)`: W1C of DONE, and of ERR with ECODE, which is the return from an error (40_host_access.md R94,
60_exceptions.md R148). -/
def statusWrite (v : Word) (r : Regs) : Regs :=
  { r with
    done := if v.getLsbD 1 then false else r.done
    err := if v.getLsbD 2 then false else r.err
    ecode := if v.getLsbD 2 then .none else r.ecode }

/-- `Abort()`: ends the command in flight without results and records ECODE 7; no effect when idle (40_host_access.md R96). -/
def abort (r : Regs) : Regs :=
  if r.busy then record .abort { r with wOp := .none, wCnt := 0#32, busy := false } else r

/-- `CtrlWrite(v)`: SRST first and alone, else the enables and ABORT (40_host_access.md R93, R97). -/
def ctrlWrite (v : Word) (r : Regs) : Regs :=
  if v.getLsbD 9 then Regs.reset
  else
    let r1 := { r with doneIe := v.getLsbD 0, errIe := v.getLsbD 1 }
    if v.getLsbD 8 then abort r1 else r1

/-- `OperandWrite(off, v)`: stores one word (40_host_access.md R92). -/
def operandWrite (o : OperandWord) (v : Word) (r : Regs) : Regs :=
  match o with
  | .polyLo => { r with poly := setLo r.poly v }
  | .polyHi => { r with poly := setHi r.poly v }
  | .n => { r with n := v }
  | .valLo => { r with val := setLo r.val v }
  | .valHi => { r with val := setHi r.val v }

/-- ID, hard-wired (10_state.md R22). -/
def idWord : Word := 0x47463244#32

/-- What a read of a mapped register word returns (40_host_access.md R90). -/
def readReg (g : RegName) (r : Regs) : Word :=
  match g with
  | .id => idWord
  | .ctrl => ctrlWord r
  | .status => statusWord r
  | .cmd => 0#32
  | .operand .polyLo => loHalf r.poly
  | .operand .polyHi => hiHalf r.poly
  | .operand .n => r.n
  | .operand .valLo => loHalf r.val
  | .operand .valHi => hiHalf r.val
  | .result .remLo => loHalf r.rem
  | .result .remHi => hiHalf r.rem
  | .result .quoLo => loHalf r.quo
  | .result .quoHi => hiHalf r.quo
  | .result .reflLo => loHalf r.refl
  | .result .reflHi => hiHalf r.refl

/-- The byte at an offset of the window, in a byte-addressed view: lane k of a register word is the byte at its offset + k
(20_memory.md R54). None where nothing is mapped. -/
def windowByte (off : Offset) (r : Regs) : Option (BitVec 8) :=
  match RegName.ofOffset (off &&& 0xFC#8) with
  | none => none
  | some g => some ((readReg g r).extractLsb' (8 * (off.extractLsb' 0 2).toNat) 8)

/-- The answer to a bus error (20_memory.md R58). -/
def errorResponse : Transaction → Response
  | .read _ => .read true 0#32
  | .write _ _ _ => .write true

/-- `Accept(c)`, common part (40_host_access.md R98). -/
def acceptCommon (r : Regs) : Regs := { r with busy := true, done := false }

/-- `Complete()`, common part (40_host_access.md R103). -/
def completeCommon (r : Regs) : Regs := { r with wOp := .none, busy := false, done := true }

/-- `rst_n` = 0: every register at its reset value, whatever was in flight (70_reset_and_hazards.md R161, R162). -/
def holdReset (s : State) : State := { s with regs := Regs.reset, inReset := true }

/-- The deassertion of `rst_n` takes effect (70_reset_and_hazards.md R162). -/
def leaveReset (s : State) : State := { s with inReset := false }

end Sys2Proof.Machine
end

