-- ==== Sys2Proof/Machine/Modred.lean ====
section
/-! DEFINITION. MODRED: acceptance, iteration, completion (42_modreduce.md). -/

namespace Sys2Proof.Machine

/-- `ModredAccept(c)` (42_modreduce.md R121). -/
def modredAccept (d : Size) (r : Regs) : Regs :=
  let p := r.poly &&& mask d.toNat
  if r.n.toNat < d.toNat then
    { r with
      wOp := .modred, wDeg := d, wPoly := p
      wRem := p, wQuo := 0#64, wCnt := 0#32, wTrunc := false }
  else
    { r with
      wOp := .modred, wDeg := d, wPoly := p
      wRem := p, wQuo := 1#64
      wCnt := r.n - d.setWidth 32
      wTrunc := decide (r.n.toNat - d.toNat ≥ 64) }

/-- `ModredIterate()` (42_modreduce.md R122). -/
def modredIterate (r : Regs) : Regs :=
  let x := divStep r.wDeg.toNat r.wPoly { rem := r.wRem, quo := r.wQuo }
  { r with wRem := x.rem, wQuo := x.quo }

/-- `ModredComplete()` (42_modreduce.md R123). -/
def modredComplete (r : Regs) : Regs :=
  { r with rem := r.wRem, quo := r.wQuo, qtrunc := r.wTrunc }

/-- The registers after a MODRED of degree d is presented (30_encoding.md R78, 42_modreduce.md R133): BUSY, then BADDEG,
then acceptance. -/
def modredIssue (d : Size) (r : Regs) : Regs :=
  if r.busy then record .busy r
  else if d = 0#7 ∨ d.toNat > 64 then record .baddeg r
  else modredAccept d (acceptCommon r)

/-- MODRED d, the effect of its CMD write. The engine's steps bring the result (`Machine/Engine.lean`): log 3. -/
def execModred (d : Size) (s : State) : Result := .next (s.setRegs (modredIssue d s.regs))

end Sys2Proof.Machine
end

