-- ==== Sys2Proof/Machine/Reflect.lean ====
section
/-! DEFINITION. REFLECT: acceptance and completion (41_reflect.md). -/

namespace Sys2Proof.Machine

/-- `ReflectAccept(c)` with the selected operand v (41_reflect.md R110). -/
def reflectAccept (w : Size) (v : DWord) (r : Regs) : Regs :=
  { r with wOp := .reflect, wWid := w, wVal := v, wCnt := 0#32 }

/-- `ReflectComplete()` (41_reflect.md R112). -/
def reflectComplete (r : Regs) : Regs := { r with refl := reflect r.wVal r.wWid.toNat }

/-- The registers after a REFLECT of width w and source src is presented (30_encoding.md R78, 41_reflect.md R110): BUSY,
then BADWID, then BADSRC, then acceptance. -/
def reflectIssue (w : Size) (src : Src) (r : Regs) : Regs :=
  if r.busy then record .busy r
  else if w = 0#7 ∨ w.toNat > 64 then record .badwid r
  else
    match srcOperand r src with
    | none => record .badsrc r
    | some v => reflectAccept w v (acceptCommon r)

/-- REFLECT w, src, the effect of its CMD write. The next engine step brings the result (`Machine/Engine.lean`): log 3. -/
def execReflect (w : Size) (src : Src) (s : State) : Result := .next (s.setRegs (reflectIssue w src s.regs))

end Sys2Proof.Machine
end

