-- ==== Sys2Proof/Machine/Dispatch.lean ====
section
/-! DEFINITION. One arm per command. -/

namespace Sys2Proof.Machine

def exec (i : Instr) (s : State) : Host.Outcome State Fault Refusal :=
  match i with
  | .modred d => Sys2Proof.Machine.execModred d s
  | .reflect w src => Sys2Proof.Machine.execReflect w src s

end Sys2Proof.Machine
end

