-- ==== Sys2Proof/Machine/Engine.lean ====
section
/-! DEFINITION. The engine: one step of the sequencer (40_host_access.md R100 to R103). -/

namespace Sys2Proof.Machine

/-- `Complete()` (40_host_access.md R103). None where the spec has no case: no command, or a width that `reflect` is not
defined for (41_reflect.md R111). -/
def completeRegs (r : Regs) : Option Regs :=
  match r.wOp with
  | .none => none
  | .modred => some (completeCommon (modredComplete r))
  | .reflect =>
    if 1 ≤ r.wWid.toNat ∧ r.wWid.toNat ≤ 64 then some (completeCommon (reflectComplete r)) else none

/-- `EngineStep()` while BUSY = 1 (40_host_access.md R101). None where the spec has no step: W_CNT ≠ 0 outside a MODRED of
degree 1 to 64. -/
def engineRegs (r : Regs) : Option Regs :=
  if r.wCnt ≠ 0#32 then
    if r.wOp = .modred ∧ 1 ≤ r.wDeg.toNat ∧ r.wDeg.toNat ≤ 64 then
      some { modredIterate r with wCnt := r.wCnt - 1#32 }
    else none
  else completeRegs r

/-- The engine's turn: no step while BUSY = 0 (40_host_access.md R100) or in reset (70_reset_and_hazards.md R162). -/
def engineStep (s : State) : Result :=
  if s.inReset || !s.regs.busy then .next s
  else
    match engineRegs s.regs with
    | some r => .next (s.setRegs r)
    | none => .fault .sequencer

end Sys2Proof.Machine
end

