-- ==== Sys2Proof/Machine/Bus.lean ====
section
/-! DEFINITION. The host port: transactions, clock edges, the POLL loop, and what one scheduled event does. -/

namespace Sys2Proof.Machine

/-- The code of a word the decoder refuses (60_exceptions.md R141). -/
def errorOf : DecodeError → ErrorCode
  | .illop => .illop
  | .rsvd => .rsvd

/-- `CmdWrite(c)` (40_host_access.md R95): the decoded command is issued; a word that is none is rejected, and BUSY comes
before its own code (60_exceptions.md R144). -/
def cmdWrite (c : Word) (s : State) : Result :=
  match decode c with
  | .ok i => exec i s
  | .error e => .next (s.setRegs (record (if s.regs.busy then .busy else errorOf e) s.regs))

/-- The effect and answer of an access (40_host_access.md R90, R91). -/
def perform (a : Access) (s : State) : Result :=
  match a with
  | .read g => .next (s.respond (.read false (readReg g s.regs)))
  | .writeCtrl v => .next ((s.setRegs (ctrlWrite v s.regs)).respond (.write false))
  | .writeStatus v => .next ((s.setRegs (statusWrite v s.regs)).respond (.write false))
  | .writeCmd c => andThen (cmdWrite c s) fun t => .next (t.respond (.write false))
  | .writeOperand o v => .next ((s.setRegs (operandWrite o v s.regs)).respond (.write false))

/-- The host agent's step: one transaction (20_memory.md R53). A bus error is answered and changes nothing (R58). In reset
the block answers no transaction (70_reset_and_hazards.md R162). -/
def hostStep (t : Transaction) (s : State) : Result :=
  if s.inReset then .refused .transactionDuringReset
  else
    match route t with
    | .error _ => .next (s.respond (errorResponse t))
    | .ok a => perform a s

/-- The host's part of a clock cycle. -/
def hostPart (t : Option Transaction) (s : State) : Result :=
  match t with
  | none => .next s
  | some t => hostStep t s

/-- One clock cycle: the host's transaction, then the engine's step for a command accepted at an earlier edge
(40_host_access.md R101, R104). -/
def cycle (t : Option Transaction) (s : State) : Result :=
  andThen (hostPart t s) fun u => if s.regs.busy then engineStep u else .next u

/-- A rising clock edge. With `rst_n` = 0 the block is held in reset; the first edge with `rst_n` = 1 ends the reset, and
the first transaction may start after it (70_reset_and_hazards.md R162): log 11. -/
def clockEdge (p : Pins) (s : State) : Result :=
  if !p.rstN || s.inReset then
    if p.psel then .refused .transactionDuringReset
    else if p.rstN then .next (leaveReset s) else .next (holdReset s)
  else cycle p.transaction? s

/-- One turn of the POLL loop: a STATUS read, and the loop goes on if it read BUSY = 1 (30_encoding.md R83). -/
def pollTurn (s : State) : Result :=
  andThen (cycle (some (.read RegName.status.offset)) s) fun u =>
    .next (if s.regs.busy then u.setInputs (.poll :: u.inputs) else u)

/-- What one event does. -/
def runEvent (e : Event) (s : State) : Result :=
  match e with
  | .host t => hostStep t s
  | .engine => engineStep s
  | .edge p => clockEdge p s
  | .poll => pollTurn s
  | .assertReset => .next (holdReset s)
  | .releaseReset => .next (leaveReset s)

/-- The next event of the schedule; with nothing scheduled, the engine's turn (log 2). -/
def advance (s : State) : Result :=
  match s.inputs with
  | [] => engineStep s
  | e :: rest => runEvent e (s.setInputs rest)

end Sys2Proof.Machine
end

