-- ==== Sys2Proof/Machine/Step.lean ====
section
/-! DEFINITION. One step, and placing a command where the next step takes it. -/

namespace Sys2Proof.Machine

/-- One step of one agent, as the schedule says (00_scope.md R9). -/
def step (s : State) : Host.Outcome State Fault Refusal := advance s

/-- The block fetches nothing (20_memory.md R68): a command comes as the host's CMD write. So the word is placed as the next
scheduled transaction, with reset released: log 4. -/
def State.withFetchWord (s : State) (nbits w : Nat) : State :=
  { s with
    inReset := false
    inputs := .host (.write RegName.cmd.offset (tableWord nbits w) 0b1111#4) :: s.inputs }

end Sys2Proof.Machine
end

