-- ==== Sys2Proof/Machine/Check.lean ====
section
/-! DEFINITION. The acceptance check and acceptance of a raw command word, as 30_encoding.md R78 and 40_host_access.md R98
write them. `step` goes through the decoder and `exec`; statements equate the two. -/

namespace Sys2Proof.Machine

/-- `check(c)` against the registers before the write; `none` is OK (30_encoding.md R78). -/
def check (c : Word) (r : Regs) : ErrorCode :=
  if r.busy then .busy
  else if fieldOpc c ≠ 1#4 ∧ fieldOpc c ≠ 2#4 then .illop
  else if fieldHigh c ≠ 0#18 ∨ fieldBit11 c ≠ 0#1 then .rsvd
  else if fieldOpc c = 1#4 ∧ fieldSrc c ≠ 0#2 then .rsvd
  else if fieldOpc c = 1#4 ∧ (fieldSize c = 0#7 ∨ (fieldSize c).toNat > 64) then .baddeg
  else if fieldOpc c = 2#4 ∧ (fieldSize c = 0#7 ∨ (fieldSize c).toNat > 64) then .badwid
  else if fieldOpc c = 2#4 ∧ fieldSrc c = 3#2 then .badsrc
  else .none

/-- The operand of `ReflectAccept(c)` (41_reflect.md R110), for the SRC values that `check` lets through. -/
def wordOperand (c : Word) (r : Regs) : DWord :=
  if fieldSrc c = 0#2 then r.val else if fieldSrc c = 1#2 then r.rem else r.quo

/-- `Accept(c)` (40_host_access.md R98). -/
def accept (c : Word) (r : Regs) : Regs :=
  if fieldOpc c = 1#4 then modredAccept (fieldSize c) (acceptCommon r)
  else reflectAccept (fieldSize c) (wordOperand c r) (acceptCommon r)

/-- `CmdWrite(c)` (40_host_access.md R95). -/
def cmdWriteRegs (c : Word) (r : Regs) : Regs :=
  if check c r = .none then accept c r else record (check c r) r

end Sys2Proof.Machine
end

