-- ==== Sys2Proof/Machine/HostProgram.lean ====
section
/-! DEFINITION. The host's assembly (30_encoding.md R80 to R89): operations, the transactions they are, and the
pseudo-operations. A host temporary `t` is host state: its value stands in the operation that uses it. -/

namespace Sys2Proof.Machine

/-- A host operation (30_encoding.md R80). -/
inductive HostOp where
  | wr (g : RegName) (v : Word)
  | rd (g : RegName)
  | cmdModred (d : Nat)
  | cmdReflect (w : Nat) (src : Src)
  | cmdWord (c : Word)
  | poll
  | wrx (v : Word) (strb : Strobes) (off : Offset)
  | rdx (off : Offset)
  deriving DecidableEq, Repr

/-- A full-word write. -/
def fullWrite (g : RegName) (v : Word) : Transaction := .write g.offset v 0b1111#4

/-- The command an assembly line writes; the assembler rejects an illegal one (30_encoding.md R81). -/
def assembleCommand : HostOp → Option Instr
  | .cmdModred d => if 1 ≤ d ∧ d ≤ 64 then some (.modred (BitVec.ofNat 7 d)) else none
  | .cmdReflect w src =>
    if 1 ≤ w ∧ w ≤ 64 ∧ src ≠ .reserved then some (.reflect (BitVec.ofNat 7 w) src) else none
  | _ => none

/-- The transaction of an operation (30_encoding.md R80): none for POLL, which is a loop, and for a rejected line. DESIGN CHOICE
(log 23): R81 says that an illegal word can only be written with `CMD .word`; the model reads this of the CMD lines alone, so
`WR CMD` and `WRX` write any word to CMD, as R80 and R82 let them. -/
def HostOp.transaction? : HostOp → Option Transaction
  | .wr g v => some (fullWrite g v)
  | .rd g => some (.read g.offset)
  | .cmdModred d => (assembleCommand (.cmdModred d)).map fun i => fullWrite .cmd (encode i)
  | .cmdReflect w src => (assembleCommand (.cmdReflect w src)).map fun i => fullWrite .cmd (encode i)
  | .cmdWord c => some (fullWrite .cmd c)
  | .poll => none
  | .wrx v strb off => some (.write off v strb)
  | .rdx off => some (.read off)

/-- The event of an operation in cycle order, one transaction per clock cycle (40_host_access.md R104). -/
def HostOp.event? : HostOp → Option Event
  | .poll => some .poll
  | op => op.transaction?.map fun t => .edge (Pins.access t)

/-- A program's schedule in cycle order; none if the assembler rejects a line. -/
def assemble (ops : List HostOp) : Option (List Event) := ops.mapM HostOp.event?

/-- `CLRST` (30_encoding.md R87). -/
def clrst : List HostOp := [.wr .status 0x00000006#32]

/-- The part GETREM and GETQUO share: clear, operands, command, poll (30_encoding.md R84). -/
def modredProgram (d : Nat) (n : Word) (poly : DWord) : List HostOp :=
  clrst ++ [.wr (.operand .polyLo) (loHalf poly), .wr (.operand .polyHi) (hiHalf poly), .wr (.operand .n) n,
    .cmdModred d, .poll]

/-- `GETREM <t>, <d>, <n>, <poly>` (30_encoding.md R84): `getRemainder(poly, degree, n)`. -/
def getRem (d : Nat) (n : Word) (poly : DWord) : List HostOp :=
  modredProgram d n poly ++ [.rd (.result .remLo), .rd (.result .remHi)]

/-- `GETQUO <t>, <d>, <n>, <poly>` (30_encoding.md R85): `getQuotient(poly, degree, n)`. -/
def getQuo (d : Nat) (n : Word) (poly : DWord) : List HostOp :=
  modredProgram d n poly ++ [.rd (.result .quoLo), .rd (.result .quoHi)]

/-- The part the three reflections share after their operand is in place (30_encoding.md R86). -/
def reflectProgram (w : Nat) (src : Src) : List HostOp :=
  [.cmdReflect w src, .poll, .rd (.result .reflLo), .rd (.result .reflHi)]

/-- `REFLV <t>, <w>, <v>` (30_encoding.md R86). -/
def reflV (w : Nat) (v : DWord) : List HostOp :=
  clrst ++ [.wr (.operand .valLo) (loHalf v), .wr (.operand .valHi) (hiHalf v)] ++ reflectProgram w .val

/-- `REFLR <t>, <w>` (30_encoding.md R86). -/
def reflR (w : Nat) : List HostOp := clrst ++ reflectProgram w .rem

/-- `REFLQ <t>, <w>` (30_encoding.md R86). -/
def reflQ (w : Nat) : List HostOp := clrst ++ reflectProgram w .quo

end Sys2Proof.Machine
end

