-- ==== Sys2Proof/Machine/Platform.lean ====
section
/-! DEFINITION. Several GF2DIV blocks on one platform (60_exceptions.md R155): each has its own window, registers, engine,
schedule and `irq`, and only its address tells it apart. -/

namespace Sys2Proof.Machine

/-- A block where the platform maps it: its own P_BASE (20_memory.md R50, 70_reset_and_hazards.md R165) and its state. -/
structure Block where
  base : Nat
  state : State
  deriving DecidableEq, Repr

/-- The blocks of a platform. -/
abbrev Platform := List Block

/-- A host transaction at an address of the host's map. -/
inductive HostAccess where
  | read (a : Nat)
  | write (a : Nat) (v : Word) (strb : Strobes)
  deriving DecidableEq, Repr

def HostAccess.address : HostAccess → Nat
  | .read a => a
  | .write a _ _ => a

/-- The transaction as the block sees it, at an offset of its window (20_memory.md R52). -/
def HostAccess.atOffset (off : Offset) : HostAccess → Transaction
  | .read _ => .read off
  | .write _ v strb => .write off v strb

/-- What happens next on the platform. Whether the blocks share one `rst_n` the spec does not say, only that "they start
together with reset" (60_exceptions.md R155). DESIGN CHOICE (log 24): the platform can reset all blocks at once, and one block
can be reset alone by an event of its own schedule. -/
inductive PlatformEvent where
  /-- The block at this place takes its next step. -/
  | block (k : Nat)
  /-- The host's transaction reaches the block whose window holds its address. -/
  | access (h : HostAccess)
  /-- `rst_n` of every block goes to 0. -/
  | assertReset
  /-- The deassertion of `rst_n` takes effect in every block. -/
  | releaseReset
  deriving DecidableEq, Repr

/-- The place of the block whose window holds an address, and the offset in it. -/
def Platform.route : Platform → Nat → Option (Nat × Offset)
  | [], _ => none
  | b :: rest, a =>
    match windowOffset b.base a with
    | some off => some (0, off)
    | none => (Platform.route rest a).map fun r => (r.1 + 1, r.2)

/-- No two windows overlap: each block has its own (60_exceptions.md R155). -/
abbrev Platform.windowsApart (p : Platform) : Prop :=
  p.Pairwise fun b c => b.base + 256 ≤ c.base ∨ c.base + 256 ≤ b.base

/-- The block at place k does `f`; its window stays where it is. -/
def Platform.stepBlock (p : Platform) (k : Nat) (f : State → Result) : Host.Outcome Platform Fault Refusal :=
  match p[k]? with
  | none => .next p
  | some b =>
    match f b.state with
    | .next t => .next (p.set k { b with state := t })
    | .fault e => .fault e
    | .refused e => .refused e

/-- One event. Blocks step one at a time, and a transaction at an address of no window reaches no block: log 16. Which blocks
a reset reaches is the model's choice: log 24. -/
def Platform.step (p : Platform) (e : PlatformEvent) : Host.Outcome Platform Fault Refusal :=
  match e with
  | .block k => p.stepBlock k Machine.step
  | .access h =>
    match p.route h.address with
    | none => .next p
    | some (k, off) => p.stepBlock k (hostStep (h.atOffset off))
  | .assertReset => .next (p.map fun b => { b with state := holdReset b.state })
  | .releaseReset => .next (p.map fun b => { b with state := leaveReset b.state })

/-- The interrupt lines, one per block. -/
def Platform.irqs (p : Platform) : List Bool := p.map fun b => irq b.state.regs

/-- Blocks with these windows, right after reset: they start together (60_exceptions.md R155). -/
def Platform.reset (bases : List Nat) : Platform := bases.map fun base => { base := base, state := State.reset }

/-- The platform of one block, at the open P_BASE. -/
def Platform.single : Platform := Platform.reset [Config.pBase]

end Sys2Proof.Machine
end

