-- ==== Sys2Proof/Safety.lean ====
section
/-! DEFINITION. What a safe run keeps, in the terms the statements use. -/

namespace Sys2Proof.Machine

/-- k steps, stopping at the first fault or refusal. -/
def run : Nat → State → Result
  | 0, s => .next s
  | k + 1, s => andThen (step s) (run k)

/-- What holds of the registers in every reachable state: 10_state.md R43, and what the acceptance checks guarantee of the
latched operands. -/
structure Regs.Inv (r : Regs) : Prop where
  /-- BUSY = 1 if and only if W_OP ≠ NONE (R43). -/
  busy_iff : r.busy = true ↔ r.wOp ≠ .none
  /-- ERR = 0 implies ECODE = 0 (R43). -/
  ecode_none : r.err = false → r.ecode = .none
  /-- ERR = 1 implies a code (60_exceptions.md R141). -/
  ecode_some : r.err = true → r.ecode ≠ .none
  /-- BUSY = 1 implies DONE = 0 (R43). -/
  busy_not_done : r.busy = true → r.done = false
  /-- W_CNT ≠ 0 implies W_OP = MODRED (R43). -/
  cnt_modred : r.wCnt ≠ 0#32 → r.wOp = .modred
  /-- A MODRED in flight has a degree in 1..64 (42_modreduce.md R121). -/
  degree : r.wOp = .modred → 1 ≤ r.wDeg.toNat ∧ r.wDeg.toNat ≤ 64
  /-- Its modulus and running remainder stay below x^W_DEG (42_modreduce.md R122). -/
  confined : r.wOp = .modred → r.wPoly.toNat < 2 ^ r.wDeg.toNat ∧ r.wRem.toNat < 2 ^ r.wDeg.toNat
  /-- A REFLECT in flight has a width in 1..64 (41_reflect.md R110). -/
  width : r.wOp = .reflect → 1 ≤ r.wWid.toNat ∧ r.wWid.toNat ≤ 64

/-- The machine's invariant: that of its registers, which hold their reset values in reset (70_reset_and_hazards.md R162). -/
structure State.Inv (s : State) : Prop where
  regs : s.regs.Inv
  reset : s.inReset = true → s.regs = Regs.reset

/-- A MODRED is in flight whose remaining iterations lead to `res` (42_modreduce.md R124). -/
structure ModredInFlight (res : DivResult) (r : Regs) : Prop where
  busy : r.busy = true
  op : r.wOp = .modred
  degree : 1 ≤ r.wDeg.toNat ∧ r.wDeg.toNat ≤ 64
  leads : divIter r.wDeg.toNat r.wPoly r.wCnt.toNat { rem := r.wRem, quo := r.wQuo } = { rem := res.rem, quo := res.quo }
  trunc : r.wTrunc = res.trunc

/-- u is the state in which a MODRED of legal degree d, issued on the idle block s, has just completed, the engine's turns
coming one after the other. -/
structure CompletedModred (d : Size) (s u : State) : Prop where
  degree_pos : 1 ≤ d.toNat
  degree_le : d.toNat ≤ 64
  idle : s.regs.busy = false
  running : s.inReset = false
  turns : ∃ rest, s.inputs = List.replicate (s.regs.n.toNat - d.toNat + 1) .engine ++ rest
  completes : ∃ t, exec (.modred d) s = .next t ∧ run (s.regs.n.toNat - d.toNat + 1) t = .next u

/-- A REFLECT is in flight that will write `v`. -/
structure ReflectInFlight (v : DWord) (r : Regs) : Prop where
  busy : r.busy = true
  op : r.wOp = .reflect
  cnt : r.wCnt = 0#32
  width : 1 ≤ r.wWid.toNat ∧ r.wWid.toNat ≤ 64
  leads : reflect r.wVal r.wWid.toNat = v

/-- The machine after the first scheduled event has left `rest` scheduled, these registers, and this bus answer. -/
def State.answered (s : State) (rest : List Event) (r : Regs) (a : Response) : State :=
  { s with regs := r, inputs := rest, responses := a :: s.responses }

/-- The transaction that an event performs, if it is one transaction. -/
def Event.transaction? : Event → Option Transaction
  | .host t => some t
  | .engine => none
  | .edge p => p.transaction?
  | .poll => some (.read RegName.status.offset)
  | .assertReset => none
  | .releaseReset => none

/-- The transaction is a CTRL write that aborts or soft-resets: full strobes, bit 8 or bit 9 set (40_host_access.md R93). -/
def Transaction.stops : Transaction → Bool
  | .read _ => false
  | .write off v strb => decide (off = RegName.ctrl.offset) && decide (strb = 0b1111#4) && (v.getLsbD 8 || v.getLsbD 9)

/-- The event can end a command in flight without its results: reset, abort or soft reset (10_state.md R29). -/
def Event.stops : Event → Bool
  | .host t => t.stops
  | .engine => false
  | .edge p => !p.rstN || (match p.transaction? with | none => false | some t => t.stops)
  | .poll => false
  | .assertReset => true
  | .releaseReset => false

end Sys2Proof.Machine
end

