-- ==== Sys2Proof/Certificates/Slice0/Obligations.lean ====
section
/-! DEFINITION. The statements for the provers, from the numbered rules of spec/. `run k s` is k steps of `step`. -/

open Sys2Proof Sys2Proof.Machine

/-! ### Encoding and the command interface -/

/-- The legal MODRED words are exactly `(d << 4) | 0x1` for d in 1..64; the match, the mask and the examples
(30_encoding.md R76). -/
def Obligations.LegalModredWords : Prop :=
  (∀ c : Word, (∃ d, decode c = .ok (.modred d) ∧ (Instr.modred d).wellFormed = true) ↔
    ∃ d : Nat, 1 ≤ d ∧ d ≤ 64 ∧ c = (BitVec.ofNat 32 d <<< 4) ||| 0x1#32) ∧
  (∀ c : Word, (∃ d, decode c = .ok (.modred d) ∧ (Instr.modred d).wellFormed = true) ↔
    c &&& 0xFFFFF80F#32 = 0x00000001#32 ∧ 1 ≤ (c.toNat / 16) % 128 ∧ (c.toNat / 16) % 128 ≤ 64) ∧
  encode (.modred 32#7) = 0x00000201#32 ∧ encode (.modred 64#7) = 0x00000401#32 ∧
  encode (.modred 1#7) = 0x00000011#32

/-- The legal REFLECT words are exactly `(s << 12) | (w << 4) | 0x2` for w in 1..64 and s in 0..2; the match, the mask and
the examples (30_encoding.md R77). -/
def Obligations.LegalReflectWords : Prop :=
  (∀ c : Word, (∃ w s, decode c = .ok (.reflect w s) ∧ (Instr.reflect w s).wellFormed = true) ↔
    ∃ w s : Nat, 1 ≤ w ∧ w ≤ 64 ∧ s ≤ 2 ∧ c = (BitVec.ofNat 32 s <<< 12) ||| (BitVec.ofNat 32 w <<< 4) ||| 0x2#32) ∧
  (∀ c : Word, (∃ w s, decode c = .ok (.reflect w s) ∧ (Instr.reflect w s).wellFormed = true) ↔
    c &&& 0xFFFFC80F#32 = 0x00000002#32 ∧ 1 ≤ (c.toNat / 16) % 128 ∧ (c.toNat / 16) % 128 ≤ 64 ∧
      (c.toNat / 4096) % 4 ≤ 2) ∧
  encode (.reflect 32#7 .val) = 0x00000202#32 ∧ encode (.reflect 32#7 .rem) = 0x00001202#32 ∧
  encode (.reflect 33#7 .quo) = 0x00002212#32

/-- Words written out from 30_encoding.md and 95_test_vectors.md E-01 to E-11 decode to the commands they stand for. -/
def Obligations.DocumentedWordsDecode : Prop :=
  decode 0x00000201#32 = .ok (.modred 32#7) ∧ decode 0x00000401#32 = .ok (.modred 64#7) ∧
  decode 0x00000011#32 = .ok (.modred 1#7) ∧ decode 0x00000031#32 = .ok (.modred 3#7) ∧
  decode 0x00000202#32 = .ok (.reflect 32#7 .val) ∧ decode 0x00001202#32 = .ok (.reflect 32#7 .rem) ∧
  decode 0x00002212#32 = .ok (.reflect 33#7 .quo) ∧ decode 0x00000402#32 = .ok (.reflect 64#7 .val) ∧
  decode 0x00000012#32 = .ok (.reflect 1#7 .val)

/-- DECODE AND ENCODE AGREE, both ways, for every command at every value of its fields, legal or not (30_encoding.md
R70 to R77): no bit is dropped, and a word has one meaning. -/
def Obligations.DecodeEncodeAgree : Prop :=
  (∀ i : Instr, decode (encode i) = .ok i) ∧ (∀ (c : Word) (i : Instr), decode c = .ok i → encode i = c)

/-- A STEP RUNS THE DECODED COMMAND: when the next event is the host's CMD write of a word that decodes to i, the step is
`exec i` on the machine with that event taken, and then the answer OKAY (40_host_access.md R95). There is no program counter
to move. -/
def Obligations.StepRunsDecodedCommand : Prop :=
  ∀ (s : State) (rest : List Event) (c : Word) (i : Instr), s.inReset = false →
    s.inputs = .host (.write 0x0C#8 c 0b1111#4) :: rest → decode c = .ok i →
    (step s = andThen (exec i { s with inputs := rest }) fun t =>
      .next { t with responses := .write false :: t.responses }) ∧
    ∃ t, step s = .next t

/-- A CMD write of any word in any state does what `check` and `Accept` of the spec say, with the answer OKAY: on OK
acceptance, else the error record alone; and the example (30_encoding.md R78, 40_host_access.md R95, R99). -/
def Obligations.CmdWriteFollowsCheck : Prop :=
  (∀ (s : State) (rest : List Event) (c : Word), s.inReset = false →
    s.inputs = .host (.write 0x0C#8 c 0b1111#4) :: rest →
    (check c s.regs = .none → step s = .next (s.answered rest (accept c s.regs) (.write false))) ∧
    (check c s.regs ≠ .none →
      step s = .next (s.answered rest
        { s.regs with err := true, ecode := if s.regs.err then s.regs.ecode else check c s.regs } (.write false)))) ∧
  (accept 0x00000201#32 Regs.reset).busy = true ∧ (accept 0x00000201#32 Regs.reset).wDeg = 32#7 ∧
  check 0x00000201#32 Regs.reset = .none

/-- Every word that is no legal MODRED or REFLECT word is rejected, whatever the state: its CMD write records an error code
and has no other effect; the degree-0 word is one of them (30_encoding.md R79). -/
def Obligations.IllegalWordsAreRejected : Prop :=
  (∀ (s : State) (rest : List Event) (c : Word), s.inReset = false →
    s.inputs = .host (.write 0x0C#8 c 0b1111#4) :: rest →
    (∀ i : Instr, i.wellFormed = true → encode i ≠ c) →
    ∃ code : ErrorCode, code ≠ .none ∧
      step s = .next (s.answered rest
        { s.regs with err := true, ecode := if s.regs.err then s.regs.ecode else code } (.write false))) ∧
  (∀ i : Instr, i.wellFormed = true → encode i ≠ 0x00000001#32)

/-- The first fault of a word is the one reported (60_exceptions.md R144): BUSY, ILLOP, RSVD, BADDEG or BADWID, BADSRC. The
machine's ERR and ECODE after the CMD write, from ERR = 0, by the numbers of the word's fields. -/
def Obligations.FirstFaultIsReported : Prop :=
  (∀ (s t : State) (rest : List Event) (c : Word), s.inReset = false → s.regs.err = false →
    s.inputs = .host (.write 0x0C#8 c 0b1111#4) :: rest → step s = .next t →
    let opc := c.toNat % 16
    let size := (c.toNat / 16) % 128
    let reserved := c.toNat / 16384 ≠ 0 ∨ (c.toNat / 2048) % 2 ≠ 0
    let src := (c.toNat / 4096) % 4
    let badSize := size = 0 ∨ 64 < size
    if s.regs.busy = true then t.regs.err = true ∧ t.regs.ecode = .busy
    else if opc ≠ 1 ∧ opc ≠ 2 then t.regs.err = true ∧ t.regs.ecode = .illop
    else if reserved ∨ (opc = 1 ∧ src ≠ 0) then t.regs.err = true ∧ t.regs.ecode = .rsvd
    else if opc = 1 ∧ badSize then t.regs.err = true ∧ t.regs.ecode = .baddeg
    else if opc = 2 ∧ badSize then t.regs.err = true ∧ t.regs.ecode = .badwid
    else if opc = 2 ∧ src = 3 then t.regs.err = true ∧ t.regs.ecode = .badsrc
    else t.regs.err = false ∧ t.regs.busy = true) ∧
  check 0xFFFFFFFF#32 Regs.reset = .illop ∧ check 0x00001001#32 Regs.reset = .rsvd ∧
  check 0x00003002#32 Regs.reset = .badwid

/-! ### MODRED -/

/-- MODRED of a legal degree on an idle block COMPLETES its issue: the accepted state, in full (42_modreduce.md R121 with the
common acceptance of 40_host_access.md R98). What is not named is unchanged: ERR, ECODE, QTRUNC, the operand and result
registers; and W_VAL and W_WID, which no rule reads then and 10_state.md R41 leaves open: that clause is the model's choice
(log 9). `exec` does not look at reset (log 21). -/
def Obligations.ModredAcceptance : Prop :=
  ∀ (s : State) (d : Size), 1 ≤ d.toNat → d.toNat ≤ 64 → s.regs.busy = false →
    exec (.modred d) s = .next { s with regs := { s.regs with
      busy := true, done := false, wOp := .modred, wDeg := d
      wPoly := s.regs.poly &&& mask d.toNat
      wRem := s.regs.poly &&& mask d.toNat
      wQuo := if s.regs.n.toNat < d.toNat then 0#64 else 1#64
      wCnt := BitVec.ofNat 32 (s.regs.n.toNat - d.toNat)
      wTrunc := decide (64 ≤ s.regs.n.toNat - d.toNat) } }

/-- MODRED while busy records ECODE 6, and of an illegal degree on an idle block ECODE 3, with no other effect
(42_modreduce.md R133, 60_exceptions.md R143). `exec` does not look at reset (log 21). -/
def Obligations.ModredRejection : Prop :=
  ∀ (s : State) (d : Size),
    (s.regs.busy = true → exec (.modred d) s = .next { s with regs := { s.regs with
      err := true, ecode := if s.regs.err then s.regs.ecode else .busy } }) ∧
    (s.regs.busy = false → (d.toNat = 0 ∨ 64 < d.toNat) → exec (.modred d) s = .next { s with regs := { s.regs with
      err := true, ecode := if s.regs.err then s.regs.ecode else .baddeg } })

/-- One iteration of a MODRED in flight, in full (42_modreduce.md R122): the bit h, the quotient and the remainder; W_REM
stays below x^W_DEG; and if W_REM = x^k mod P before, it is x^(k+1) mod P after, with quotient x·Q + h. That the unread W_VAL
and W_WID stay (10_state.md R41 leaves them open) is the model's choice (log 9). -/
def Obligations.EngineIteration : Prop :=
  ∀ (s : State) (rest : List Event), s.inReset = false → s.inputs = .engine :: rest →
    s.regs.busy = true → s.regs.wOp = .modred → s.regs.wCnt ≠ 0#32 →
    1 ≤ s.regs.wDeg.toNat → s.regs.wDeg.toNat ≤ 64 →
    let d := s.regs.wDeg.toNat
    let h := s.regs.wRem.getLsbD (d - 1)
    let rem' := ((s.regs.wRem <<< 1) &&& mask d) ^^^ (if h then s.regs.wPoly else 0#64)
    step s = .next { s with inputs := rest, regs := { s.regs with
      wQuo := (s.regs.wQuo <<< 1) ||| (if h then 1#64 else 0#64)
      wRem := rem'
      wCnt := s.regs.wCnt - 1#32 } } ∧
    (s.regs.wPoly.toNat < 2 ^ d → rem'.toNat < 2 ^ d) ∧
    (s.regs.wPoly.toNat < 2 ^ d → s.regs.wRem.toNat < 2 ^ d → ∀ q k : Nat,
      2 ^ k = clmul q (2 ^ d ||| s.regs.wPoly.toNat) ^^^ s.regs.wRem.toNat →
      2 ^ (k + 1) = clmul (2 * q + (if h then 1 else 0)) (2 ^ d ||| s.regs.wPoly.toNat) ^^^ rem'.toNat)

/-- The completing engine step of a MODRED, in full: REM, QUO and QTRUNC, then the common completion; REFL is not written
(42_modreduce.md R123, 40_host_access.md R103). That the working registers other than W_OP, unread from then on, keep their
values (10_state.md R41 leaves them open) is the model's choice (log 9). -/
def Obligations.ModredCompletion : Prop :=
  ∀ (s : State) (rest : List Event), s.inReset = false → s.inputs = .engine :: rest →
    s.regs.busy = true → s.regs.wOp = .modred → s.regs.wCnt = 0#32 →
    step s = .next { s with inputs := rest, regs := { s.regs with
      rem := s.regs.wRem, quo := s.regs.wQuo, qtrunc := s.regs.wTrunc
      wOp := .none, busy := false, done := true } }

/-- MODRED, from its issue to its results, when the engine's turns come next: it performs exactly max(0, n − d) iterations
and then completes, max(0, n − d) + 1 engine steps in all; before the last step the block is busy and the result registers
hold their old values; the last step writes `modReduce(n, POLY, d)` (42_modreduce.md R135, R124, 40_host_access.md R105). The working registers of
the final state, unread then (10_state.md R41), are the model's choice (log 9). -/
def Obligations.ModredRunsToClosedForm : Prop :=
  ∀ (s : State) (rest : List Event) (d : Size), 1 ≤ d.toNat → d.toNat ≤ 64 → s.regs.busy = false → s.inReset = false →
    let n := s.regs.n.toNat
    let res := modReduce n s.regs.poly d.toNat
    s.inputs = List.replicate (n - d.toNat + 1) .engine ++ rest →
    ∃ t, exec (.modred d) s = .next t ∧
      (∀ k, k ≤ n - d.toNat → ∃ u, run k t = .next u ∧ u.regs.busy = true ∧
        u.regs.done = false ∧ u.regs.wCnt.toNat = n - d.toNat - k ∧ u.regs.rem = s.regs.rem ∧
        u.regs.quo = s.regs.quo ∧ u.regs.qtrunc = s.regs.qtrunc ∧ u.regs.refl = s.regs.refl) ∧
      run (n - d.toNat + 1) t = .next { s with inputs := rest, regs := { s.regs with
        rem := res.rem, quo := res.quo, qtrunc := res.trunc, done := true
        wOp := .none, wDeg := d, wPoly := s.regs.poly &&& mask d.toNat
        wRem := res.rem, wQuo := res.quo, wCnt := 0#32, wTrunc := res.trunc } }

/-- What a completed MODRED wrote, for every n (42_modreduce.md R124, R128, R134): the values of the closed form; and for
n ≥ d, as polynomials, with Q the full quotient of degree exactly n − d, x^n = Q·(x^d + p) + REM, REM is the only remainder
below x^d, QUO is the low 64 coefficients of Q, and QTRUNC says whether some were dropped. -/
def Obligations.ModredRemainderIsExact : Prop :=
  ∀ (s u : State) (d : Size), CompletedModred d s u →
    let n := s.regs.n.toNat
    let m := 2 ^ d.toNat ||| (s.regs.poly &&& mask d.toNat).toNat
    let res := modReduce n s.regs.poly d.toNat
    (u.regs.rem = res.rem ∧ u.regs.quo = res.quo ∧ u.regs.qtrunc = res.trunc) ∧
    (d.toNat ≤ n → u.regs.rem.toNat < 2 ^ d.toNat ∧
      (u.regs.qtrunc = true ↔ 64 ≤ n - d.toNat) ∧
      ∃ q : Nat, q.log2 = n - d.toNat ∧ q ≠ 0 ∧ 2 ^ n = clmul q m ^^^ u.regs.rem.toNat ∧
        u.regs.quo.toNat = q % 2 ^ 64 ∧
        ∀ q' r' : Nat, r' < 2 ^ d.toNat → 2 ^ n = clmul q' m ^^^ r' → q' = q ∧ r' = u.regs.rem.toNat) ∧
    (n < d.toNat → u.regs.qtrunc = false)

/-- The algebraic identity of a completed MODRED with n ≥ d (42_modreduce.md R125): with QTRUNC = 0,
`clmul(QUO, (1 << d) | p) ^ REM = 1 << n`; with QTRUNC = 1 it holds of a full quotient whose low 64 coefficients are QUO;
and it fails for some n < d. -/
def Obligations.ModredAlgebraicIdentity : Prop :=
  (∀ (s u : State) (d : Size), CompletedModred d s u → d.toNat ≤ s.regs.n.toNat →
    let m := (1 <<< d.toNat) ||| (s.regs.poly &&& mask d.toNat).toNat
    (u.regs.qtrunc = false → clmul u.regs.quo.toNat m ^^^ u.regs.rem.toNat = 1 <<< s.regs.n.toNat) ∧
    (u.regs.qtrunc = true → ∃ q : Nat, u.regs.quo.toNat = q % 2 ^ 64 ∧ 2 ^ 64 ≤ q ∧
      clmul q m ^^^ u.regs.rem.toNat = 1 <<< s.regs.n.toNat)) ∧
  (∃ (s u : State), CompletedModred 3#7 s u ∧ s.regs.n.toNat < 3 ∧
    clmul u.regs.quo.toNat ((1 <<< 3) ||| (s.regs.poly &&& mask 3).toNat) ^^^ u.regs.rem.toNat ≠ 1 <<< s.regs.n.toNat)

/-- The degenerate cases, after one engine step: n < d gives (POLY & mask(d), 0), n = d gives (POLY & mask(d), 1), both with
QTRUNC = 0 and no error recorded (42_modreduce.md R126, R127). -/
def Obligations.ModredDegenerateCases : Prop :=
  ∀ (s : State) (rest : List Event) (d : Size), 1 ≤ d.toNat → d.toNat ≤ 64 → s.regs.busy = false → s.inReset = false →
    s.inputs = .engine :: rest → s.regs.n.toNat ≤ d.toNat →
    ∃ t u, exec (.modred d) s = .next t ∧ step t = .next u ∧ u.regs.busy = false ∧ u.regs.done = true ∧
      u.regs.rem = s.regs.poly &&& mask d.toNat ∧
      u.regs.quo = (if s.regs.n.toNat < d.toNat then 0#64 else 1#64) ∧ u.regs.qtrunc = false ∧
      u.regs.err = s.regs.err ∧ u.regs.ecode = s.regs.ecode

/-- A completed MODRED of degree 1 (42_modreduce.md R131): REM is 0 or 1; for n ≥ 1, with POLY[0] = 1 every iteration sees
h = 1, REM = 1 and QUO = (2^n − 1) mod 2^64; with POLY[0] = 0, REM = 0 and QUO = 1 << (n − 1) truncated to 64 bits; and the
examples. -/
def Obligations.ModredDegreeOne : Prop :=
  (∀ (s u : State), CompletedModred 1#7 s u →
    let n := s.regs.n.toNat
    (u.regs.rem = 0#64 ∨ u.regs.rem = 1#64) ∧
    (1 ≤ n → s.regs.poly.getLsbD 0 = true →
      (∀ k, (divIter 1 (s.regs.poly &&& mask 1) k { rem := s.regs.poly &&& mask 1, quo := 1#64 }).rem.getLsbD 0 = true) ∧
      u.regs.rem = 1#64 ∧ u.regs.quo = BitVec.ofNat 64 (2 ^ n - 1)) ∧
    (1 ≤ n → s.regs.poly.getLsbD 0 = false →
      u.regs.rem = 0#64 ∧ u.regs.quo = BitVec.ofNat 64 (2 ^ (n - 1)))) ∧
  modReduce 5 1#64 1 = { rem := 1#64, quo := 0x1F#64, trunc := false } ∧
  modReduce 5 0#64 1 = { rem := 0#64, quo := 0x10#64, trunc := false } ∧
  modReduce 70 1#64 1 = { rem := 1#64, quo := 0xFFFFFFFFFFFFFFFF#64, trunc := true }

/-- An iteration at degree 64 (42_modreduce.md R130): the mask is all ones, h is bit 63, and h is exactly the bit that the
64-bit shift drops; and the example, with its full quotient. -/
def Obligations.ModredDegreeSixtyFour : Prop :=
  mask 64 = BitVec.allOnes 64 ∧
  (∀ (p : DWord) (x : Division),
    (divStep 64 p x).rem = (x.rem <<< 1) ^^^ (if x.rem.getLsbD 63 then p else 0#64) ∧
    2 * x.rem.toNat = (if x.rem.getLsbD 63 then 2 ^ 64 else 0) + (x.rem <<< 1).toNat) ∧
  modReduce 128 0x1B#64 64 = { rem := 0x145#64, quo := 0x1B#64, trunc := true } ∧
  clmul (2 ^ 64 + 0x1B) (2 ^ 64 + 0x1B) = 2 ^ 128 ^^^ 0x145

/-- The results of a MODRED are a function of d, N and POLY & mask(d) alone, whatever else the two machines hold: POLY[63:d]
does not affect them (42_modreduce.md R129, 00_scope.md R16). -/
def Obligations.ModredDependsOnMaskedOperandsOnly : Prop :=
  ∀ (s s' u u' : State) (d : Size), CompletedModred d s u → CompletedModred d s' u' →
    s.regs.n = s'.regs.n → (∀ i, i < d.toNat → s.regs.poly.getLsbD i = s'.regs.poly.getLsbD i) →
    u.regs.rem = u'.regs.rem ∧ u.regs.quo = u'.regs.quo ∧ u.regs.qtrunc = u'.regs.qtrunc

/-- The worked examples (42_modreduce.md R138): x^7 by x^3 + x + 1, iteration by iteration on the machine, and the quotient
of x^64. -/
def Obligations.ModredWorkedExamples : Prop :=
  (∃ t, exec (.modred 3#7) { State.reset with
      regs := { Regs.reset with poly := 3#64, n := 7#32 }, inputs := List.replicate 5 .engine } = .next t ∧
    (t.regs.wRem = 0b011#64 ∧ t.regs.wQuo = 1#64 ∧ t.regs.wCnt = 4#32 ∧ t.regs.wRem.getLsbD 2 = false) ∧
    (∃ u, run 1 t = .next u ∧ u.regs.wQuo = 0b10#64 ∧ u.regs.wRem = 0b110#64 ∧ u.regs.wRem.getLsbD 2 = true) ∧
    (∃ u, run 2 t = .next u ∧ u.regs.wQuo = 0b101#64 ∧ u.regs.wRem = 0b111#64 ∧ u.regs.wRem.getLsbD 2 = true) ∧
    (∃ u, run 3 t = .next u ∧ u.regs.wQuo = 0b1011#64 ∧ u.regs.wRem = 0b101#64 ∧ u.regs.wRem.getLsbD 2 = true) ∧
    (∃ u, run 4 t = .next u ∧ u.regs.wQuo = 0b10111#64 ∧ u.regs.wRem = 0b001#64) ∧
    (∃ u, run 5 t = .next u ∧ u.regs.rem = 1#64 ∧ u.regs.quo = 0x17#64 ∧
      u.regs.qtrunc = false)) ∧
  clmul 0x17 0b1011 ^^^ 1 = 2 ^ 7 ∧
  modReduce 64 0x04C11DB7#64 32 = { rem := 0x490D678D#64, quo := 0x0000000104D101DF#64, trunc := false } ∧
  reflect 0x0000000104D101DF#64 33 = 0x1F7011641#64

/-! ### REFLECT -/

/-- REFLECT of a legal width and source on an idle block COMPLETES its issue: the accepted state, in full, for each of the
three sources (41_reflect.md R110 with the common acceptance of 40_host_access.md R98). What is not named is unchanged; that
this holds of the MODRED working registers, which no rule reads then (10_state.md R41), is the model's choice (log 9). `exec`
does not look at reset (log 21). -/
def Obligations.ReflectAcceptance : Prop :=
  ∀ (s : State) (w : Size), 1 ≤ w.toNat → w.toNat ≤ 64 → s.regs.busy = false →
    exec (.reflect w .val) s = .next { s with regs := { s.regs with
      busy := true, done := false, wOp := .reflect, wWid := w, wVal := s.regs.val, wCnt := 0#32 } } ∧
    exec (.reflect w .rem) s = .next { s with regs := { s.regs with
      busy := true, done := false, wOp := .reflect, wWid := w, wVal := s.regs.rem, wCnt := 0#32 } } ∧
    exec (.reflect w .quo) s = .next { s with regs := { s.regs with
      busy := true, done := false, wOp := .reflect, wWid := w, wVal := s.regs.quo, wCnt := 0#32 } }

/-- REFLECT while busy records ECODE 6; on an idle block an illegal width records ECODE 4, whatever the source, and SRC = 3
with a legal width ECODE 5; nothing else changes (41_reflect.md R110, 60_exceptions.md R143). `exec` does not look at reset
(log 21). -/
def Obligations.ReflectRejection : Prop :=
  ∀ (s : State) (w : Size) (src : Src),
    (s.regs.busy = true → exec (.reflect w src) s = .next { s with regs := { s.regs with
      err := true, ecode := if s.regs.err then s.regs.ecode else .busy } }) ∧
    (s.regs.busy = false → (w.toNat = 0 ∨ 64 < w.toNat) → exec (.reflect w src) s = .next { s with regs := { s.regs with
      err := true, ecode := if s.regs.err then s.regs.ecode else .badwid } }) ∧
    (s.regs.busy = false → 1 ≤ w.toNat → w.toNat ≤ 64 →
      exec (.reflect w .reserved) s = .next { s with regs := { s.regs with
        err := true, ecode := if s.regs.err then s.regs.ecode else .badsrc } })

/-- REFLECT, from its issue to its result, when the engine's turn comes next: one engine step writes REFL, whose bit i is bit
w − 1 − i of the operand for i < w and 0 above; in full (41_reflect.md R111, R112, R113). The working registers of the final
state, unread then (10_state.md R41), are the model's choice (log 9). -/
def Obligations.ReflectRunsToResult : Prop :=
  ∀ (s : State) (rest : List Event) (w : Size) (src : Src), 1 ≤ w.toNat → w.toNat ≤ 64 → src ≠ .reserved →
    s.regs.busy = false → s.inReset = false → s.inputs = .engine :: rest →
    ∃ (t : State) (v : DWord), exec (.reflect w src) s = .next t ∧ t.regs.busy = true ∧ t.regs.done = false ∧
      v = (match src with | .val => s.regs.val | .rem => s.regs.rem | .quo => s.regs.quo | .reserved => 0#64) ∧
      ∃ refl' : DWord, step t = .next { s with inputs := rest, regs := { s.regs with
          refl := refl', done := true, wOp := .none, wWid := w, wVal := v, wCnt := 0#32 } } ∧
        (∀ i, i < w.toNat → refl'.getLsbD i = v.getLsbD (w.toNat - 1 - i)) ∧
        (∀ i, w.toNat ≤ i → refl'.getLsbD i = false)

/-- Reflection is an involution on w-bit values, and masks the others (41_reflect.md R116). -/
def Obligations.ReflectIsAnInvolution : Prop :=
  ∀ (v : DWord) (w : Nat), 1 ≤ w → w ≤ 64 →
    (v &&& ~~~(mask w) = 0#64 → reflect (reflect v w) w = v) ∧ reflect (reflect v w) w = v &&& mask w

/-- The corner cases and worked examples of reflection (41_reflect.md R115, R117). -/
def Obligations.ReflectExamples : Prop :=
  (∀ v : DWord, reflect v 1 = v &&& 1#64) ∧
  reflect 0x0000000000000001#64 64 = 0x8000000000000000#64 ∧
  reflect 0xFFFFFFFFFFFFFFFF#64 4 = 0xF#64 ∧ reflect 0x1F0#64 4 = 0#64 ∧
  reflect 0xFFFFFFFFFFFFFFFF#64 64 = 0xFFFFFFFFFFFFFFFF#64 ∧
  reflect 0xEDB88320#64 32 = 0x04C11DB7#64 ∧
  reflect 0x0000000104C11DB7#64 33 = 0x00000001DB710641#64 ∧
  reflect 0x0000000104D101DF#64 33 = 0x00000001F7011641#64

/-! ### The engine -/

/-- While BUSY = 0 the engine has no step: its turn, and a clock edge without a transaction, change nothing
(40_host_access.md R100). -/
def Obligations.EngineIdlesWhenNotBusy : Prop :=
  ∀ (s : State) (rest : List Event), s.regs.busy = false →
    (s.inputs = .engine :: rest → step s = .next { s with inputs := rest }) ∧
    (∀ p : Pins, s.inReset = false → p.rstN = true → p.transaction? = none → s.inputs = .edge p :: rest →
      step s = .next { s with inputs := rest })

/-- With nothing scheduled a step is the engine's turn: the model's choice (log 2). -/
def Obligations.UnscheduledStepIsTheEngines : Prop :=
  ∀ s : State, s.inputs = [] → step s = step { s with inputs := [.engine] }

/-- Every command in flight completes after W_CNT + 1 engine steps and not before (40_host_access.md R102,
70_reset_and_hazards.md R175). -/
def Obligations.EveryCommandCompletes : Prop :=
  ∀ (s : State) (rest : List Event), s.Inv → s.inReset = false → s.regs.busy = true →
    s.inputs = List.replicate (s.regs.wCnt.toNat + 1) .engine ++ rest →
    (∀ k, k ≤ s.regs.wCnt.toNat → ∃ u, run k s = .next u ∧ u.regs.busy = true ∧ u.regs.done = false) ∧
    ∃ t, run (s.regs.wCnt.toNat + 1) s = .next t ∧ t.inputs = rest ∧ t.regs.busy = false ∧ t.regs.done = true ∧
      t.regs.err = s.regs.err ∧ t.regs.ecode = s.regs.ecode

/-- The completing engine step of a REFLECT, in full; REM, QUO and QTRUNC are not written (41_reflect.md R112,
40_host_access.md R103). That the working registers other than W_OP, unread from then on (10_state.md R41), keep their values
is the model's choice (log 9). -/
def Obligations.ReflectCompletion : Prop :=
  ∀ (s : State) (rest : List Event), s.inReset = false → s.inputs = .engine :: rest →
    s.regs.busy = true → s.regs.wOp = .reflect → s.regs.wCnt = 0#32 →
    1 ≤ s.regs.wWid.toNat → s.regs.wWid.toNat ≤ 64 →
    step s = .next { s with inputs := rest, regs := { s.regs with
      refl := reflect s.regs.wVal s.regs.wWid.toNat, wOp := .none, busy := false, done := true } }

/-- A MODRED in flight keeps leading to the result latched at its acceptance through EVERY step, whatever the host, the clock
and reset do: it is still in flight with that result, or it has completed and the result registers hold it, or an event that
may stop commands came (reset, ABORT, SRST) and it ended without results (00_scope.md R16, 40_host_access.md R105, R108). -/
def Obligations.ModredResultSurvivesInterleaving : Prop :=
  ∀ (s t : State) (res : DivResult), ModredInFlight res s.regs → s.regs.done = false → step s = .next t →
    (ModredInFlight res t.regs ∧ t.regs.done = false ∧
      t.regs.rem = s.regs.rem ∧ t.regs.quo = s.regs.quo ∧ t.regs.qtrunc = s.regs.qtrunc) ∨
    (t.regs.busy = false ∧ t.regs.wOp = .none ∧ t.regs.done = true ∧
      t.regs.rem = res.rem ∧ t.regs.quo = res.quo ∧ t.regs.qtrunc = res.trunc) ∨
    ((∃ e rest, s.inputs = e :: rest ∧ e.stops = true) ∧
      (t.regs = Regs.reset ∨
        (t.regs.busy = false ∧ t.regs.wOp = .none ∧ t.regs.done = false ∧ t.regs.err = true ∧
          t.regs.rem = s.regs.rem ∧ t.regs.quo = s.regs.quo ∧ t.regs.qtrunc = s.regs.qtrunc)))

/-- An accepted MODRED is in flight with the closed form of its latched operands (42_modreduce.md R121, R124): what the
statement above starts from. -/
def Obligations.AcceptedModredLeadsToClosedForm : Prop :=
  ∀ (s t : State) (d : Size), 1 ≤ d.toNat → d.toNat ≤ 64 → s.regs.busy = false → exec (.modred d) s = .next t →
    ModredInFlight (modReduce s.regs.n.toNat s.regs.poly d.toNat) t.regs ∧ t.regs.done = false

/-- The same of a REFLECT in flight (00_scope.md R16, 41_reflect.md R114): its operand was read at acceptance, and every
interleaving leaves it in flight, completed with REFL written, or stopped without a result. -/
def Obligations.ReflectResultSurvivesInterleaving : Prop :=
  ∀ (s t : State) (v : DWord), ReflectInFlight v s.regs → s.regs.done = false → step s = .next t →
    (ReflectInFlight v t.regs ∧ t.regs.done = false ∧ t.regs.refl = s.regs.refl) ∨
    (t.regs.busy = false ∧ t.regs.wOp = .none ∧ t.regs.done = true ∧ t.regs.refl = v ∧
      t.regs.rem = s.regs.rem ∧ t.regs.quo = s.regs.quo ∧ t.regs.qtrunc = s.regs.qtrunc) ∨
    ((∃ e rest, s.inputs = e :: rest ∧ e.stops = true) ∧
      (t.regs = Regs.reset ∨
        (t.regs.busy = false ∧ t.regs.wOp = .none ∧ t.regs.done = false ∧ t.regs.err = true ∧
          t.regs.refl = s.regs.refl)))

/-- REM, QUO, QTRUNC and REFL change only at a completion that writes them and at reset: a rule of the whole machine, over
every step (40_host_access.md R105). -/
def Obligations.ResultsChangeOnlyAtCompletionOrReset : Prop :=
  ∀ (s t : State), step s = .next t →
    (t.regs.rem = s.regs.rem ∧ t.regs.quo = s.regs.quo ∧ t.regs.qtrunc = s.regs.qtrunc ∧ t.regs.refl = s.regs.refl) ∨
    t.regs = Regs.reset ∨
    (s.regs.busy = true ∧ s.regs.wOp = .modred ∧ s.regs.wCnt = 0#32 ∧ t.regs.busy = false ∧ t.regs.done = true ∧
      t.regs.rem = s.regs.wRem ∧ t.regs.quo = s.regs.wQuo ∧ t.regs.qtrunc = s.regs.wTrunc ∧
      t.regs.refl = s.regs.refl) ∨
    (s.regs.busy = true ∧ s.regs.wOp = .reflect ∧ s.regs.wCnt = 0#32 ∧ t.regs.busy = false ∧ t.regs.done = true ∧
      t.regs.refl = reflect s.regs.wVal s.regs.wWid.toNat ∧
      t.regs.rem = s.regs.rem ∧ t.regs.quo = s.regs.quo ∧ t.regs.qtrunc = s.regs.qtrunc)

/-- POLY, N, VAL and the interrupt enables are the host's: outside reset no step changes one of them but a full-word write
to its own offset (10_state.md R48, R24, R25, R35, R36, R37). -/
def Obligations.OperandsChangeOnlyByHostWrites : Prop :=
  ∀ (s t : State), step s = .next t → t.regs ≠ Regs.reset →
    let wrote (off : Offset) : Prop := ∃ e rest v, s.inputs = e :: rest ∧ e.transaction? = some (.write off v 0b1111#4)
    (t.regs.poly ≠ s.regs.poly → wrote 0x10#8 ∨ wrote 0x14#8) ∧
    (t.regs.n ≠ s.regs.n → wrote 0x18#8) ∧
    (t.regs.val ≠ s.regs.val → wrote 0x20#8 ∨ wrote 0x24#8) ∧
    (t.regs.doneIe ≠ s.regs.doneIe → wrote 0x04#8) ∧ (t.regs.errIe ≠ s.regs.errIe → wrote 0x04#8)

/-! ### The register interface -/

/-- What a host read returns at each offset, for every offset of the window: the table of 40_host_access.md R90, with a
bus error and 0 elsewhere. -/
def Sys2Proof.expectedRead (off : Offset) (r : Regs) : Response :=
  let b (x : Bool) (k : Nat) : Nat := if x then 2 ^ k else 0
  let lo (v : DWord) : Word := BitVec.ofNat 32 (v.toNat % 2 ^ 32)
  let hi (v : DWord) : Word := BitVec.ofNat 32 (v.toNat / 2 ^ 32)
  match off.toNat with
  | 0x00 => .read false 0x47463244#32
  | 0x04 => .read false (BitVec.ofNat 32 (b r.errIe 1 + b r.doneIe 0))
  | 0x08 => .read false (BitVec.ofNat 32
      (16 * r.ecode.toBits.toNat + b r.qtrunc 3 + b r.err 2 + b r.done 1 + b r.busy 0))
  | 0x0C => .read false 0#32
  | 0x10 => .read false (lo r.poly)
  | 0x14 => .read false (hi r.poly)
  | 0x18 => .read false r.n
  | 0x20 => .read false (lo r.val)
  | 0x24 => .read false (hi r.val)
  | 0x28 => .read false (lo r.rem)
  | 0x2C => .read false (hi r.rem)
  | 0x30 => .read false (lo r.quo)
  | 0x34 => .read false (hi r.quo)
  | 0x38 => .read false (lo r.refl)
  | 0x3C => .read false (hi r.refl)
  | _ => .read true 0#32

/-- A host read at any offset answers what the table says and changes nothing (40_host_access.md R90, 20_memory.md R61); and
the example. -/
def Obligations.HostReadAnswersTheTable : Prop :=
  (∀ (s : State) (rest : List Event) (off : Offset), s.inReset = false → s.inputs = .host (.read off) :: rest →
    step s = .next (s.answered rest s.regs (Sys2Proof.expectedRead off s.regs))) ∧
  Sys2Proof.expectedRead 0x00#8 Regs.reset = .read false 0x47463244#32 ∧
  Sys2Proof.expectedRead 0x08#8 Regs.reset = .read false 0#32

/-- The bus errors (60_exceptions.md R145, 20_memory.md R58): a transaction with a cause of the table is answered with
`pslverr` = 1 and changes no register, STATUS.ERR included; and a write without a cause is answered OKAY. -/
def Obligations.BusErrorsChangeNothing : Prop :=
  ∀ (s : State) (rest : List Event) (off : Offset), s.inReset = false →
    let a := off.toNat
    let badOffset := a % 4 ≠ 0 ∨ a = 0x1C ∨ 0x40 ≤ a
    (s.inputs = .host (.read off) :: rest → badOffset →
      step s = .next (s.answered rest s.regs (.read true 0#32))) ∧
    (∀ (v : Word) (strb : Strobes), s.inputs = .host (.write off v strb) :: rest →
      let cause := badOffset ∨ strb ≠ 0b1111#4 ∨ a = 0x00 ∨ (0x28 ≤ a ∧ a ≤ 0x3C)
      (cause → step s = .next (s.answered rest s.regs (.write true))) ∧
      (¬ cause → ∃ r, step s = .next (s.answered rest r (.write false))))

/-- An operand write stores its one word and changes nothing else, whether or not a command is in flight
(40_host_access.md R92); and the example. -/
def Obligations.OperandWriteStoresOneWord : Prop :=
  (∀ (s : State) (rest : List Event) (v : Word), s.inReset = false →
    (s.inputs = .host (.write 0x10#8 v 0b1111#4) :: rest → step s = .next (s.answered rest
      { s.regs with poly := (s.regs.poly &&& 0xFFFFFFFF00000000#64) ||| v.setWidth 64 } (.write false))) ∧
    (s.inputs = .host (.write 0x14#8 v 0b1111#4) :: rest → step s = .next (s.answered rest
      { s.regs with poly := (s.regs.poly &&& 0x00000000FFFFFFFF#64) ||| (v.setWidth 64 <<< 32) } (.write false))) ∧
    (s.inputs = .host (.write 0x18#8 v 0b1111#4) :: rest → step s = .next (s.answered rest
      { s.regs with n := v } (.write false))) ∧
    (s.inputs = .host (.write 0x20#8 v 0b1111#4) :: rest → step s = .next (s.answered rest
      { s.regs with val := (s.regs.val &&& 0xFFFFFFFF00000000#64) ||| v.setWidth 64 } (.write false))) ∧
    (s.inputs = .host (.write 0x24#8 v 0b1111#4) :: rest → step s = .next (s.answered rest
      { s.regs with val := (s.regs.val &&& 0x00000000FFFFFFFF#64) ||| (v.setWidth 64 <<< 32) } (.write false)))) ∧
  ∃ t, step { State.reset with inputs := [.host (.write 0x18#8 64#32 0b1111#4)] } = .next t ∧ t.regs.n = 64#32

/-- Read after write, over the whole register map: after a write of an operand word, a read of that word gives the value
written, and a read of any other register word gives what it gave before (10_state.md R35 to R37, 20_memory.md R65). -/
def Obligations.OperandReadsBackAsWritten : Prop :=
  ∀ (s : State) (rest : List Event) (o : OperandWord) (g : RegName) (v : Word), s.inReset = false →
    s.inputs = .host (.write (RegName.operand o).offset v 0b1111#4) :: .host (.read g.offset) :: rest →
    ∃ t, run 2 s = .next t ∧ t.inputs = rest ∧
      t.responses = .read false (if g = .operand o then v else readReg g s.regs) :: .write false :: s.responses

/-- A CTRL write (40_host_access.md R93, R96, R97): SRST wins and resets everything; else the enables are written, and ABORT
ends a command in flight without results and records ECODE 7, with no effect when idle; all other bits are ignored. In full,
for every state. That an abort leaves
the working registers other than W_OP and W_CNT as they were (10_state.md R41 leaves them open) is the model's choice (log 9). -/
def Obligations.CtrlWriteEffects : Prop :=
  ∀ (s : State) (rest : List Event) (v : Word), s.inReset = false →
    s.inputs = .host (.write 0x04#8 v 0b1111#4) :: rest →
    (v.getLsbD 9 = true → step s = .next (s.answered rest Regs.reset (.write false))) ∧
    (v.getLsbD 9 = false → (v.getLsbD 8 = false ∨ s.regs.busy = false) →
      step s = .next (s.answered rest { s.regs with doneIe := v.getLsbD 0, errIe := v.getLsbD 1 } (.write false))) ∧
    (v.getLsbD 9 = false → v.getLsbD 8 = true → s.regs.busy = true →
      step s = .next (s.answered rest { s.regs with
        doneIe := v.getLsbD 0, errIe := v.getLsbD 1, wOp := .none, wCnt := 0#32, busy := false
        err := true, ecode := if s.regs.err then s.regs.ecode else .abort } (.write false)))

/-- A STATUS write clears DONE by bit 1, and ERR with ECODE by bit 2; every other bit is ignored; and the example
(40_host_access.md R94). This is the return from an error (60_exceptions.md R148). -/
def Obligations.StatusWriteClears : Prop :=
  (∀ (s : State) (rest : List Event) (v : Word), s.inReset = false →
    s.inputs = .host (.write 0x08#8 v 0b1111#4) :: rest →
    step s = .next (s.answered rest { s.regs with
      done := s.regs.done && !v.getLsbD 1
      err := s.regs.err && !v.getLsbD 2
      ecode := if v.getLsbD 2 then .none else s.regs.ecode } (.write false))) ∧
  ∃ t, step { State.reset with
      regs := { Regs.reset with done := true, err := true, ecode := .baddeg }
      inputs := [.host (.write 0x08#8 0x4#32 0b1111#4), .host (.read 0x08#8)] } = .next t ∧
    ∃ u, step t = .next u ∧ u.responses.head? = some (.read false 0x00000002#32)

/-- The interrupt output (10_state.md R44): a function of state alone, and of the STATUS and CTRL words a host reads. -/
def Obligations.IrqFollowsStatusAndCtrl : Prop :=
  ∀ r : Regs,
    irq r = ((r.done && r.doneIe) || (r.err && r.errIe)) ∧
    irq r = (((statusWord r).getLsbD 1 && (ctrlWord r).getLsbD 0) || ((statusWord r).getLsbD 2 && (ctrlWord r).getLsbD 1))

/-- The bytes of the window (20_memory.md R54, R55): byte lane k of a register word is the byte at its offset + k, and the
bytes at a 64-bit register's offset + 0 to + 7 are its little-endian bytes. The byte view is the model's: log 15. -/
def Obligations.WindowIsLittleEndian : Prop :=
  (∀ (r : Regs) (g : RegName) (k : Fin 4),
    windowByte (g.offset + BitVec.ofNat 8 k.val) r = some ((readReg g r).extractLsb' (8 * k.val) 8)) ∧
  (∀ (r : Regs) (k : Fin 8),
    windowByte (0x10#8 + BitVec.ofNat 8 k.val) r = some (r.poly.extractLsb' (8 * k.val) 8) ∧
    windowByte (0x20#8 + BitVec.ofNat 8 k.val) r = some (r.val.extractLsb' (8 * k.val) 8) ∧
    windowByte (0x28#8 + BitVec.ofNat 8 k.val) r = some (r.rem.extractLsb' (8 * k.val) 8) ∧
    windowByte (0x30#8 + BitVec.ofNat 8 k.val) r = some (r.quo.extractLsb' (8 * k.val) 8) ∧
    windowByte (0x38#8 + BitVec.ofNat 8 k.val) r = some (r.refl.extractLsb' (8 * k.val) 8))

/-! ### Agents, clock, reset -/

/-- Events of one clock cycle (40_host_access.md R104). A clock edge outside reset is the host's transaction and then the
engine's step of a command accepted earlier: the same as those agents' steps one after the other. So, in the cycle in which
a command would complete, a CMD write is rejected with ECODE 6 and the command completes; an abort ends it without results;
and a STATUS write that clears DONE does not lose the completion. Steps that interleave freely reach the other order too. -/
def Obligations.CycleOrder : Prop :=
  (∀ (s : State) (rest : List Event) (p : Pins), s.inReset = false → p.rstN = true → s.inputs = .edge p :: rest →
    (∀ tr, p.transaction? = some tr →
      (s.regs.busy = true → step s = run 2 { s with inputs := .host tr :: .engine :: rest }) ∧
      (s.regs.busy = false → step s = step { s with inputs := .host tr :: rest })) ∧
    (p.transaction? = none → step s = step { s with inputs := .engine :: rest })) ∧
  ∀ (s : State) (rest : List Event), s.Inv → s.inReset = false → s.regs.busy = true → s.regs.wCnt = 0#32 →
    (∀ c, s.inputs = .edge (Pins.access (.write 0x0C#8 c 0b1111#4)) :: rest → ∃ t, step s = .next t ∧
      t.regs.busy = false ∧ t.regs.done = true ∧ t.regs.err = true ∧
      t.regs.ecode = (if s.regs.err then s.regs.ecode else .busy)) ∧
    (s.inputs = .edge (Pins.access (.write 0x04#8 0x100#32 0b1111#4)) :: rest → ∃ t, step s = .next t ∧
      t.regs.busy = false ∧ t.regs.done = false ∧ t.regs.err = true ∧ t.regs.rem = s.regs.rem ∧
      t.regs.quo = s.regs.quo ∧ t.regs.qtrunc = s.regs.qtrunc ∧ t.regs.refl = s.regs.refl) ∧
    (∀ v : Word, v.getLsbD 1 = true →
      s.inputs = .edge (Pins.access (.write 0x08#8 v 0b1111#4)) :: rest → s.regs.done = false ∧ ∃ t, step s = .next t ∧
      t.regs.busy = false ∧ t.regs.done = true) ∧
    (∀ tr, s.inputs = .engine :: .host tr :: rest → ∃ t, step s = .next t ∧
      t.regs.busy = false ∧ t.regs.done = true ∧ t.inputs = .host tr :: rest)

/-- Reset (70_reset_and_hazards.md R160, R161, R163): the assertion of `rst_n` and a soft reset both leave every register at
its reset value, whatever was in flight; the values a host sees; and `irq`. -/
def Obligations.ResetSetsEveryRegister : Prop :=
  (∀ (s : State) (rest : List Event), s.inputs = .assertReset :: rest →
    step s = .next { s with regs := Regs.reset, inReset := true, inputs := rest }) ∧
  (∀ (s : State) (rest : List Event) (v : Word), s.inReset = false → v.getLsbD 9 = true →
    s.inputs = .host (.write 0x04#8 v 0b1111#4) :: rest →
    step s = .next (s.answered rest Regs.reset (.write false))) ∧
  State.reset.regs = Regs.reset ∧
  Regs.reset = {
    doneIe := false, errIe := false, busy := false, done := false, err := false, qtrunc := false,
    ecode := .none, poly := 0, n := 0, val := 0, rem := 0, quo := 0, refl := 0, wOp := .none, wPoly := 0, wDeg := 0,
    wRem := 0, wQuo := 0, wCnt := 0, wTrunc := false, wVal := 0, wWid := 0 } ∧
  readReg .id Regs.reset = 0x47463244#32 ∧ readReg .ctrl Regs.reset = 0#32 ∧ readReg .status Regs.reset = 0#32 ∧
  irq Regs.reset = false

/-- While reset is asserted (70_reset_and_hazards.md R162): the engine takes no step, a host transaction is not answered (the
model refuses it, 93_implementation_defined.md V8), `pready` is undriven, a clock edge with `rst_n` = 0 holds every register
at at its reset value, and the first edge with `rst_n` = 1, or the release event, ends the reset. The refusal and the edge's
form are the model's: log 6, 11. -/
def Obligations.NothingRunsInReset : Prop :=
  ∀ (s : State) (rest : List Event), s.inReset = true →
    pready s = none ∧
    (s.inputs = .engine :: rest → step s = .next { s with inputs := rest }) ∧
    (∀ tr, s.inputs = .host tr :: rest → step s = .refused .transactionDuringReset) ∧
    (∀ p : Pins, s.inputs = .edge p :: rest →
      (p.psel = true → step s = .refused .transactionDuringReset) ∧
      (p.psel = false → p.rstN = false →
        step s = .next { s with regs := Regs.reset, inReset := true, inputs := rest }) ∧
      (p.psel = false → p.rstN = true → step s = .next { s with inReset := false, inputs := rest })) ∧
    (s.inputs = .releaseReset :: rest → step s = .next { s with inReset := false, inputs := rest })

/-- A POLL loop on a busy block ends after W_CNT + 2 reads, one per clock cycle: all but the last see the STATUS word with
BUSY = 1, the last sees BUSY = 0 and DONE = 1 (30_encoding.md R83, 40_host_access.md R102, 70_reset_and_hazards.md R175). The event is the model's: log 13. -/
def Obligations.PollEndsAtCompletion : Prop :=
  ∀ (s : State) (rest : List Event), s.Inv → s.inReset = false → s.regs.busy = true → s.inputs = .poll :: rest →
    ∃ t, run (s.regs.wCnt.toNat + 2) s = .next t ∧ t.inputs = rest ∧
      t.regs.busy = false ∧ t.regs.done = true ∧ t.regs.err = s.regs.err ∧ t.regs.ecode = s.regs.ecode ∧
      t.responses = .read false (statusWord t.regs) ::
        (List.replicate (s.regs.wCnt.toNat + 1) (.read false (statusWord s.regs)) ++ s.responses)

/-! ### Invariants -/

/-- The reset state meets the invariant. -/
def Obligations.ResetMeetsInvariant : Prop := State.reset.Inv

/-- Every step keeps the invariant, from every state that meets it (10_state.md R42, R43). -/
def Obligations.EveryStepKeepsInvariant : Prop :=
  ∀ s t : State, s.Inv → step s = .next t → t.Inv

/-- In every reachable state, that is after any number of steps from reset under any schedule of the outside world: BUSY = 1
iff W_OP ≠ NONE; ERR = 0 implies ECODE = 0; BUSY = 1 implies DONE = 0; W_CNT ≠ 0 implies W_OP = MODRED (10_state.md R43). -/
def Obligations.ReachableStatesAreConsistent : Prop :=
  ∀ (k : Nat) (es : List Event) (t : State),
    run k { State.reset with inputs := es } = .next t →
    (t.regs.busy = true ↔ t.regs.wOp ≠ .none) ∧ (t.regs.err = false → t.regs.ecode = .none) ∧
    (t.regs.busy = true → t.regs.done = false) ∧ (t.regs.wCnt ≠ 0#32 → t.regs.wOp = .modred)

/-- From a state that meets the invariant no step faults; and the one thing refused is a transaction during reset. So every
reachable state and input has a successor (93_implementation_defined.md, end of part 2). -/
def Obligations.NoStepFaults : Prop :=
  ∀ s : State, s.Inv →
    (∀ e, step s ≠ .fault e) ∧
    (∀ e, step s = .refused e → e = .transactionDuringReset ∧
      (s.inReset = true ∨ ∃ p rest, s.inputs = .edge p :: rest ∧ p.rstN = false))

/-! ### Around the block -/

/-- The assembler (30_encoding.md R81): it takes exactly the legal commands, and the transaction of a command is the full-word
write of its word to CMD (R80); `CMD .word` writes any word. What `WR CMD` and `WRX` may write is the model's choice (log 23)
and not said here. -/
def Obligations.AssemblerTakesLegalCommands : Prop :=
  (∀ d : Nat, (HostOp.cmdModred d).transaction? =
    if 1 ≤ d ∧ d ≤ 64 then some (.write 0x0C#8 (BitVec.ofNat 32 (d * 16 + 1)) 0b1111#4) else none) ∧
  (∀ (w : Nat) (src : Src), (HostOp.cmdReflect w src).transaction? =
    if 1 ≤ w ∧ w ≤ 64 ∧ src ≠ .reserved then
      some (.write 0x0C#8 (BitVec.ofNat 32 (src.toBits.toNat * 4096 + w * 16 + 2)) 0b1111#4) else none) ∧
  (∀ c : Word, (HostOp.cmdWord c).transaction? = some (.write 0x0C#8 c 0b1111#4))

/-- Blocks share no state (60_exceptions.md R155): a step of one, or a transaction that reaches another or none, leaves a block
and its `irq` as they were; and no event moves a window or adds or removes a block. The platform is the model's: log 16, 24. -/
def Obligations.BlocksAreIndependent : Prop :=
  ∀ (p p' : Platform) (e : PlatformEvent), p.step e = .next p' →
    p'.map (fun b => b.base) = p.map (fun b => b.base) ∧
    ∀ j : Nat, (match e with
        | .block k => j ≠ k
        | .access h => ∀ r, p.route h.address = some r → j ≠ r.1
        | .assertReset => False
        | .releaseReset => False) →
      p'[j]? = p[j]? ∧ p'.irqs[j]? = p.irqs[j]?

/-- Blocks are told apart by address (60_exceptions.md R155, 20_memory.md R50): where windows do not overlap, every address of
a block's window reaches that block at its offset, the transaction there is the block's own host step, and an address in no
window reaches no block (the last is the model's choice: log 16). -/
def Obligations.AddressesReachTheirBlock : Prop :=
  ∀ p : Platform, p.windowsApart →
    (∀ (k : Nat) (b : Block) (off : Offset) (t : State), p[k]? = some b →
      p.route (hostAddress b.base off) = some (k, off) ∧
      (step { b.state with inputs := .host (.read off) :: b.state.inputs } = .next t →
        p.step (.access (.read (hostAddress b.base off))) = .next (p.set k { b with state := t })) ∧
      ∀ (v : Word) (strb : Strobes),
        step { b.state with inputs := .host (.write off v strb) :: b.state.inputs } = .next t →
        p.step (.access (.write (hostAddress b.base off) v strb)) = .next (p.set k { b with state := t })) ∧
    (∀ h : HostAccess, (∀ b ∈ p, h.address < b.base ∨ b.base + 256 ≤ h.address) → p.step (.access h) = .next p)

/-- Blocks start together with reset (60_exceptions.md R155): right after reset every block is in its reset state, each with its
own window; and a reset of the platform gives every block its reset values. That a platform has such a common reset beside
that of each block is the model's choice: log 24. -/
def Obligations.BlocksStartTogether : Prop :=
  (∀ (bases : List Nat) (k : Nat) (base : Nat), bases[k]? = some base →
    (Platform.reset bases)[k]? = some { base := base, state := State.reset }) ∧
  (∀ p : Platform, ∃ u v, p.step .assertReset = .next u ∧ u.step .releaseReset = .next v ∧
    v.length = p.length ∧ (∀ b ∈ u, b.state.inReset = true ∧ b.state.regs = Regs.reset) ∧
    ∀ b ∈ v, b.state.inReset = false ∧ b.state.regs = Regs.reset)
end

