-- ==== Sys2Proof/Laws/Decode.lean ====
section
/-! SUPPORT. The fields of encoded words, and the inversion of the decoder. -/

namespace Sys2Proof

@[simp] theorem Src.ofBits_toBits (s : Src) : Src.ofBits s.toBits = s := by cases s <;> rfl

@[simp] theorem Src.toBits_ofBits (b : BitVec 2) : (Src.ofBits b).toBits = b := by
  revert b; decide

theorem Src.ofBits_eq_reserved (b : BitVec 2) : Src.ofBits b = .reserved ↔ b = 3#2 := by
  revert b; decide

/-- A word is its five fields (30_encoding.md R71). -/
theorem fields_join (c : Word) : fieldHigh c ++ fieldSrc c ++ fieldBit11 c ++ fieldSize c ++ fieldOpc c = c := by
  apply BitVec.eq_of_getLsbD_eq
  intro i hi
  simp only [fieldHigh, fieldSrc, fieldBit11, fieldSize, fieldOpc, BitVec.getLsbD_append, BitVec.getLsbD_extractLsb']
  by_cases h4 : i < 4
  · simp [h4]
  · by_cases h11 : i - 4 < 7
    · simp [h4, h11, show 4 + (i - 4) = i by omega]
    · by_cases h12 : i - 4 - 7 < 1
      · simp [h4, h11, h12, show 11 + (i - 4 - 7) = i by omega]
      · by_cases h14 : i - 4 - 7 - 1 < 2
        · simp [h4, h11, h12, h14, show 12 + (i - 4 - 7 - 1) = i by omega]
        · simp [h4, h11, h12, h14, show i - 4 - 7 - 1 - 2 < 18 by omega,
            show 14 + (i - 4 - 7 - 1 - 2) = i by omega]

/-- Two words with the same fields are the same word. -/
theorem word_ext {c c' : Word} (ho : fieldOpc c = fieldOpc c') (hz : fieldSize c = fieldSize c')
    (h11 : fieldBit11 c = fieldBit11 c') (hs : fieldSrc c = fieldSrc c') (hh : fieldHigh c = fieldHigh c') : c = c' := by
  rw [← fields_join c, ← fields_join c', ho, hz, h11, hs, hh]

@[simp] theorem fieldOpc_encode_modred (d : Size) : fieldOpc (encode (.modred d)) = 1#4 := by
  revert d; decide
@[simp] theorem fieldSize_encode_modred (d : Size) : fieldSize (encode (.modred d)) = d := by
  revert d; decide
@[simp] theorem fieldBit11_encode_modred (d : Size) : fieldBit11 (encode (.modred d)) = 0#1 := by
  revert d; decide
@[simp] theorem fieldSrc_encode_modred (d : Size) : fieldSrc (encode (.modred d)) = 0#2 := by
  revert d; decide
@[simp] theorem fieldHigh_encode_modred (d : Size) : fieldHigh (encode (.modred d)) = 0#18 := by
  revert d; decide

@[simp] theorem fieldOpc_encode_reflect (w : Size) (s : Src) : fieldOpc (encode (.reflect w s)) = 2#4 := by
  cases s <;> revert w <;> decide
@[simp] theorem fieldSize_encode_reflect (w : Size) (s : Src) : fieldSize (encode (.reflect w s)) = w := by
  cases s <;> revert w <;> decide
@[simp] theorem fieldBit11_encode_reflect (w : Size) (s : Src) : fieldBit11 (encode (.reflect w s)) = 0#1 := by
  cases s <;> revert w <;> decide
@[simp] theorem fieldSrc_encode_reflect (w : Size) (s : Src) : fieldSrc (encode (.reflect w s)) = s.toBits := by
  cases s <;> revert w <;> decide
@[simp] theorem fieldHigh_encode_reflect (w : Size) (s : Src) : fieldHigh (encode (.reflect w s)) = 0#18 := by
  cases s <;> revert w <;> decide

/-- What a decoded word looks like: every case of the decoder that answers an instruction. -/
theorem decode_eq_ok {c : Word} {i : Instr} (h : decode c = .ok i) :
    fieldHigh c = 0#18 ∧ fieldBit11 c = 0#1 ∧
      ((fieldOpc c = 1#4 ∧ fieldSrc c = 0#2 ∧ i = .modred (fieldSize c)) ∨
        (fieldOpc c = 2#4 ∧ i = .reflect (fieldSize c) (Src.ofBits (fieldSrc c)))) := by
  unfold decode at h
  split at h
  · cases h
  · rename_i h1
    split at h
    · cases h
    · rename_i h2
      have hh : fieldHigh c = 0#18 := by by_contra hc; exact h2 (.inl hc)
      have hb : fieldBit11 c = 0#1 := by by_contra hc; exact h2 (.inr hc)
      refine ⟨hh, hb, ?_⟩
      split at h
      · rename_i h3
        split at h
        · cases h
        · rename_i h4
          exact .inl ⟨h3, by by_contra hc; exact h4 hc, (Except.ok.inj h).symm⟩
      · rename_i h3
        exact .inr ⟨by by_contra hc; exact h1 ⟨h3, hc⟩, (Except.ok.inj h).symm⟩

/-! The fields as numbers. -/

theorem fieldOpc_toNat (c : Word) : (fieldOpc c).toNat = c.toNat % 16 := by
  simp [fieldOpc, BitVec.extractLsb']

theorem fieldSize_toNat (c : Word) : (fieldSize c).toNat = (c.toNat / 16) % 128 := by
  simp [fieldSize, BitVec.extractLsb', Nat.shiftRight_eq_div_pow]

theorem fieldBit11_toNat (c : Word) : (fieldBit11 c).toNat = (c.toNat / 2048) % 2 := by
  simp [fieldBit11, BitVec.extractLsb', Nat.shiftRight_eq_div_pow]

theorem fieldSrc_toNat (c : Word) : (fieldSrc c).toNat = (c.toNat / 4096) % 4 := by
  simp [fieldSrc, BitVec.extractLsb', Nat.shiftRight_eq_div_pow]

theorem fieldHigh_toNat (c : Word) : (fieldHigh c).toNat = c.toNat / 16384 := by
  have := c.isLt
  simp [fieldHigh, BitVec.extractLsb', Nat.shiftRight_eq_div_pow]
  omega

/-- A word decodes to MODRED exactly by its fields (30_encoding.md R76). -/
theorem decode_eq_modred (c : Word) (d : Size) : decode c = .ok (.modred d) ↔
    fieldHigh c = 0#18 ∧ fieldBit11 c = 0#1 ∧ fieldSrc c = 0#2 ∧ fieldOpc c = 1#4 ∧ fieldSize c = d := by
  constructor
  · intro h
    obtain ⟨hh, hb, ⟨ho, hs, he⟩ | ⟨ho, he⟩⟩ := decode_eq_ok h
    · cases he; exact ⟨hh, hb, hs, ho, rfl⟩
    · cases he
  · rintro ⟨h1, h2, h3, h4, rfl⟩
    simp [decode, h1, h2, h3, h4]

/-- A word decodes to REFLECT exactly by its fields (30_encoding.md R77). -/
theorem decode_eq_reflect (c : Word) (w : Size) (s : Src) : decode c = .ok (.reflect w s) ↔
    fieldHigh c = 0#18 ∧ fieldBit11 c = 0#1 ∧ Src.ofBits (fieldSrc c) = s ∧ fieldOpc c = 2#4 ∧ fieldSize c = w := by
  constructor
  · intro h
    obtain ⟨hh, hb, ⟨ho, hs, he⟩ | ⟨ho, he⟩⟩ := decode_eq_ok h
    · cases he
    · cases he; exact ⟨hh, hb, rfl, ho, rfl⟩
  · rintro ⟨h1, h2, rfl, h4, rfl⟩
    simp [decode, h1, h2, h4]

end Sys2Proof
end

