-- ==== Sys2Proof/Laws/Gf2.lean ====
section
/-! SUPPORT. The arithmetic: mask, reflection, the division step and carry-less multiplication. -/

namespace Sys2Proof.Machine

theorem mask_toNat {d : Nat} (h : d ≤ 64) : (mask d).toNat = 2 ^ d - 1 := by
  have key : ∀ d : Fin 65, (mask d.val).toNat = 2 ^ d.val - 1 := by decide
  exact key ⟨d, by omega⟩

theorem and_mask_toNat (v : DWord) {d : Nat} (h : d ≤ 64) : (v &&& mask d).toNat = v.toNat % 2 ^ d := by
  rw [BitVec.toNat_and, mask_toNat h, Nat.and_two_pow_sub_one_eq_mod]

theorem and_mask_lt (v : DWord) {d : Nat} (h : d ≤ 64) : (v &&& mask d).toNat < 2 ^ d := by
  rw [and_mask_toNat v h]
  exact Nat.mod_lt _ (Nat.two_pow_pos d)

theorem and_mask_eq_self {v : DWord} {d : Nat} (hd : d ≤ 64) (h : v.toNat < 2 ^ d) : v &&& mask d = v := by
  apply BitVec.eq_of_toNat_eq
  rw [and_mask_toNat v hd, Nat.mod_eq_of_lt h]

theorem getLsbD_mask {d : Nat} (h : d ≤ 64) (i : Nat) : (mask d).getLsbD i = decide (i < d) := by
  rw [← BitVec.testBit_toNat, mask_toNat h, Nat.testBit_two_pow_sub_one]

/-- The bits of a reflection (41_reflect.md R111). -/
theorem getLsbD_reflect (v : DWord) {w : Nat} (h : w ≤ 64) (i : Nat) :
    (reflect v w).getLsbD i = (decide (i < w) && v.getLsbD (w - 1 - i)) := by
  unfold reflect
  rw [BitVec.getLsbD_ushiftRight, BitVec.getLsbD_reverse, BitVec.getMsbD_eq_getLsbD]
  by_cases hi : i < w
  · have e : 64 - 1 - (64 - w + i) = w - 1 - i := by omega
    have l : 64 - w + i < 64 := by omega
    simp [hi, l, e]
  · have l : ¬ (64 - w + i < 64) := by omega
    simp [hi, l]

/-- One iteration as numbers: the remainder doubles, and the modulus takes back the bit shifted out. -/
theorem divStep_rem_toNat (d : Nat) (p : DWord) (x : Division) (hd : d ≤ 64) :
    (divStep d p x).rem.toNat =
      (2 * x.rem.toNat % 2 ^ d) ^^^ (if x.rem.toNat.testBit (d - 1) then p.toNat else 0) := by
  have hdvd : 2 ^ d ∣ 2 ^ 64 := Nat.pow_dvd_pow 2 hd
  have h1 : ((x.rem <<< 1) &&& mask d).toNat = 2 * x.rem.toNat % 2 ^ d := by
    rw [and_mask_toNat _ hd, BitVec.toNat_shiftLeft, Nat.shiftLeft_eq, Nat.mod_mod_of_dvd _ hdvd, Nat.mul_comm]
  unfold divStep
  simp only [BitVec.toNat_xor, h1, BitVec.testBit_toNat]
  split <;> simp

theorem divStep_quo_toNat (d : Nat) (p : DWord) (x : Division) :
    (divStep d p x).quo.toNat =
      (2 * x.quo.toNat + (if x.rem.toNat.testBit (d - 1) then 1 else 0)) % 2 ^ 64 := by
  have hsh : (x.quo <<< 1).toNat = 2 ^ 1 * (x.quo.toNat % 2 ^ 63) := by
    rw [BitVec.toNat_shiftLeft, Nat.shiftLeft_eq]; omega
  have hor : ∀ b : Nat, b < 2 ^ 1 → 2 ^ 1 * (x.quo.toNat % 2 ^ 63) ||| b = (2 * x.quo.toNat + b) % 2 ^ 64 := by
    intro b hb
    rw [← Nat.two_pow_add_eq_or_of_lt hb]; omega
  unfold divStep
  simp only [BitVec.testBit_toNat, BitVec.toNat_or, hsh]
  split
  · exact hor 1 (by decide)
  · exact hor 0 (by decide)

/-- The remainder stays below x^d (42_modreduce.md R122). -/
theorem divStep_rem_lt {d : Nat} {p : DWord} (x : Division) (hd : d ≤ 64) (hp : p.toNat < 2 ^ d) :
    (divStep d p x).rem.toNat < 2 ^ d := by
  rw [divStep_rem_toNat d p x hd]
  apply Nat.xor_lt_two_pow (Nat.mod_lt _ (Nat.two_pow_pos d))
  split
  · exact hp
  · exact Nat.two_pow_pos d

theorem divIter_succ_last (d : Nat) (p : DWord) (k : Nat) (x : Division) :
    divIter d p (k + 1) x = divStep d p (divIter d p k x) := by
  induction k generalizing x with
  | zero => rfl
  | succ k ih => exact ih (divStep d p x)

theorem divIter_rem_lt {d : Nat} {p : DWord} (k : Nat) (x : Division) (hd : d ≤ 64) (hp : p.toNat < 2 ^ d)
    (hx : x.rem.toNat < 2 ^ d) : (divIter d p k x).rem.toNat < 2 ^ d := by
  induction k generalizing x with
  | zero => exact hx
  | succ k ih => exact ih _ (divStep_rem_lt x hd hp)

/-! ### Carry-less multiplication -/

theorem clmulBelow_xor (a a' b k : Nat) :
    clmulBelow (a ^^^ a') b k = clmulBelow a b k ^^^ clmulBelow a' b k := by
  induction k with
  | zero => simp [clmulBelow]
  | succ k ih =>
    simp only [clmulBelow, ih]
    split
    · rw [Nat.shiftLeft_xor_distrib]; ac_rfl
    · simp only [Nat.xor_zero]

theorem clmulBelow_double (a b k : Nat) : clmulBelow (2 * a) b k = 2 * clmulBelow a b k := by
  induction k with
  | zero => rfl
  | succ k ih =>
    have dbl : ∀ x y : Nat, 2 * (x ^^^ y) = 2 * x ^^^ 2 * y := fun x y => by
      have h := Nat.shiftLeft_xor_distrib (a := x) (b := y) (i := 1)
      simpa [Nat.shiftLeft_eq, Nat.mul_comm] using h
    simp only [clmulBelow, ih, dbl]
    split
    · simp [Nat.shiftLeft_eq, Nat.mul_assoc]
    · simp

theorem clmulBelow_one_testBit (b k i : Nat) : (clmulBelow 1 b k).testBit i = (decide (i < k) && b.testBit i) := by
  induction k with
  | zero => simp [clmulBelow]
  | succ k ih =>
    simp only [clmulBelow, Nat.testBit_xor, ih]
    by_cases hb : b.testBit k
    · simp only [hb, if_true, Nat.one_shiftLeft, Nat.testBit_two_pow]
      rcases Nat.lt_trichotomy i k with h | h | h
      · simp [h, Nat.lt_succ_of_lt h, Nat.ne_of_gt h]
      · subst h; simp [hb]
      · have : ¬ i < k := by omega
        have h2 : ¬ i < k + 1 := by omega
        simp [this, h2, Nat.ne_of_lt h]
    · simp only [hb]
      rcases Nat.lt_trichotomy i k with h | h | h
      · simp [h, Nat.lt_succ_of_lt h]
      · subst h; simp [hb]
      · have : ¬ i < k := by omega
        have h2 : ¬ i < k + 1 := by omega
        simp [this, h2]

theorem clmul_xor (a a' b : Nat) : clmul (a ^^^ a') b = clmul a b ^^^ clmul a' b := clmulBelow_xor a a' b _

theorem clmul_double (a b : Nat) : clmul (2 * a) b = 2 * clmul a b := clmulBelow_double a b _

theorem clmul_one (b : Nat) : clmul 1 b = b := by
  apply Nat.eq_of_testBit_eq
  intro i
  rw [clmul, clmulBelow_one_testBit]
  by_cases h : i < b.log2 + 1
  · simp [h]
  · have : b < 2 ^ i := Nat.lt_of_lt_of_le Nat.lt_log2_self (Nat.pow_le_pow_right (by omega) (by omega))
    simp [h, Nat.testBit_lt_two_pow this]

theorem clmul_zero (b : Nat) : clmul 0 b = 0 := by
  have h := clmul_double 0 b
  simp at h
  omega

theorem clmulBelow_lt {a b k m : Nat} (ha : a < 2 ^ m) : clmulBelow a b k < 2 ^ (m + k) := by
  induction k with
  | zero => simp [clmulBelow]
  | succ k ih =>
    apply Nat.xor_lt_two_pow
    · exact Nat.lt_of_lt_of_le ih (Nat.pow_le_pow_right (by omega) (by omega))
    · split
      · rw [Nat.shiftLeft_eq]
        calc a * 2 ^ k < 2 ^ m * 2 ^ k := Nat.mul_lt_mul_of_pos_right ha (Nat.two_pow_pos k)
          _ = 2 ^ (m + k) := (Nat.pow_add ..).symm
          _ ≤ 2 ^ (m + (k + 1)) := Nat.pow_le_pow_right (by omega) (by omega)
      · exact Nat.two_pow_pos _

/-- The degrees add: the top bit of a product. -/
theorem clmul_top {a b : Nat} (ha : a ≠ 0) (hb : b ≠ 0) : (clmul a b).testBit (a.log2 + b.log2) = true := by
  have hbt : b.testBit b.log2 = true := Nat.testBit_log2 hb
  have hat : a.testBit a.log2 = true := Nat.testBit_log2 ha
  have hlow : clmulBelow a b b.log2 < 2 ^ (a.log2 + 1 + b.log2) := clmulBelow_lt Nat.lt_log2_self
  rw [clmul, clmulBelow, if_pos hbt, Nat.testBit_xor, Nat.testBit_shiftLeft]
  have h2 : (clmulBelow a b b.log2).testBit (a.log2 + b.log2) = false := by
    by_cases h0 : b.log2 = 0
    · simp [h0, clmulBelow]
    · -- every term below the top one is shorter by at least one place
      apply Nat.testBit_lt_two_pow
      have hk : ∀ k, k ≥ 1 → clmulBelow a b k < 2 ^ (a.log2 + k) := by
        intro k hk
        induction k with
        | zero => omega
        | succ k ih =>
          apply Nat.xor_lt_two_pow
          · by_cases hk0 : k = 0
            · subst hk0; simp [clmulBelow]
            · exact Nat.lt_of_lt_of_le (ih (by omega)) (Nat.pow_le_pow_right (by omega) (by omega))
          · split
            · rw [Nat.shiftLeft_eq, show a.log2 + (k + 1) = (a.log2 + 1) + k by omega, Nat.pow_add]
              exact Nat.mul_lt_mul_of_pos_right Nat.lt_log2_self (Nat.two_pow_pos k)
            · exact Nat.two_pow_pos _
      exact hk _ (by omega)
  simp [h2, hat]

/-- A remainder below x^d is unique: two such remainders of the same polynomial by a modulus of degree d are equal. -/
theorem clmul_remainder_unique {d p q q' r r' : Nat} (hp : p < 2 ^ d) (hr : r < 2 ^ d) (hr' : r' < 2 ^ d)
    (h : clmul q (2 ^ d ^^^ p) ^^^ r = clmul q' (2 ^ d ^^^ p) ^^^ r') : q = q' ∧ r = r' := by
  have hP : (2 ^ d ^^^ p).log2 = d := by
    have hbit : (2 ^ d ^^^ p).testBit d = true := by
      simp [Nat.testBit_xor, Nat.testBit_lt_two_pow hp]
    have hlt : 2 ^ d ^^^ p < 2 ^ (d + 1) :=
      Nat.xor_lt_two_pow (Nat.pow_lt_pow_right (by omega) (by omega))
        (Nat.lt_trans hp (Nat.pow_lt_pow_right (by omega) (by omega)))
    have hge : 2 ^ d ≤ 2 ^ d ^^^ p := Nat.ge_two_pow_of_testBit hbit
    have hne : 2 ^ d ^^^ p ≠ 0 := by have := Nat.two_pow_pos d; omega
    exact (Nat.log2_eq_iff hne).2 ⟨hge, hlt⟩
  have hPne : 2 ^ d ^^^ p ≠ 0 := by
    intro h0
    have hbit : (2 ^ d ^^^ p).testBit d = true := by
      simp [Nat.testBit_xor, Nat.testBit_lt_two_pow hp]
    simp [h0] at hbit
  have hx : clmul (q ^^^ q') (2 ^ d ^^^ p) = r ^^^ r' := by
    have h2 := congrArg (fun z => z ^^^ clmul q' (2 ^ d ^^^ p) ^^^ r) h
    rw [clmul_xor]
    calc clmul q (2 ^ d ^^^ p) ^^^ clmul q' (2 ^ d ^^^ p)
        = clmul q (2 ^ d ^^^ p) ^^^ r ^^^ clmul q' (2 ^ d ^^^ p) ^^^ r := by
          rw [Nat.xor_assoc (clmul q _) r, Nat.xor_comm r, ← Nat.xor_assoc, Nat.xor_assoc _ r r, Nat.xor_self,
            Nat.xor_zero]
      _ = clmul q' (2 ^ d ^^^ p) ^^^ r' ^^^ clmul q' (2 ^ d ^^^ p) ^^^ r := h2
      _ = r ^^^ r' := by
          rw [Nat.xor_comm (clmul q' _) r', Nat.xor_assoc r', Nat.xor_self, Nat.xor_zero, Nat.xor_comm]
  have hlt : r ^^^ r' < 2 ^ d := Nat.xor_lt_two_pow hr hr'
  have hq : q ^^^ q' = 0 := by
    by_contra hne
    have ht := clmul_top hne hPne
    rw [hP, hx] at ht
    have := Nat.ge_two_pow_of_testBit ht
    have h3 : 2 ^ d ≤ 2 ^ ((q ^^^ q').log2 + d) := Nat.pow_le_pow_right (by omega) (by omega)
    omega
  have hqq : q = q' := by
    calc q = q ^^^ (q' ^^^ q') := by simp
      _ = (q ^^^ q') ^^^ q' := by rw [Nat.xor_assoc]
      _ = q' := by rw [hq, Nat.zero_xor]
  refine ⟨hqq, ?_⟩
  rw [hq, clmul_zero] at hx
  calc r = r ^^^ (r' ^^^ r') := by simp
    _ = (r ^^^ r') ^^^ r' := by rw [Nat.xor_assoc]
    _ = r' := by rw [← hx, Nat.zero_xor]

/-! ### The modulus as a number -/

theorem two_pow_or_eq_xor {d p : Nat} (h : p < 2 ^ d) : 2 ^ d ||| p = 2 ^ d ^^^ p := by
  apply Nat.eq_of_testBit_eq
  intro i
  simp only [Nat.testBit_or, Nat.testBit_xor, Nat.testBit_two_pow]
  by_cases hi : d = i
  · subst hi; simp [Nat.testBit_lt_two_pow h]
  · simp [hi]

theorem two_mul_xor (x y : Nat) : 2 * (x ^^^ y) = 2 * x ^^^ 2 * y := by
  have h := Nat.shiftLeft_xor_distrib (a := x) (b := y) (i := 1)
  simpa [Nat.shiftLeft_eq, Nat.mul_comm] using h

theorem two_mul_add_one_xor (x : Nat) : 2 * x + 1 = 2 * x ^^^ 1 := by
  have := Nat.two_pow_add_eq_or_of_lt (i := 1) (b := 1) (by decide) x
  rw [Nat.pow_one] at this
  rw [this]
  apply Nat.eq_of_testBit_eq
  intro i
  rw [Nat.testBit_or, Nat.testBit_xor]
  cases i <;> simp [Nat.testBit_succ]

/-- One iteration keeps `x^k = Q·P + R` (42_modreduce.md R122): k and the degree of Q go up by one. -/
theorem divStep_identity {d : Nat} {p : DWord} {x : Division} {q k : Nat} (h1 : 1 ≤ d) (hd : d ≤ 64)
    (hx : x.rem.toNat < 2 ^ d) (h : 2 ^ k = clmul q (2 ^ d ^^^ p.toNat) ^^^ x.rem.toNat) :
    2 ^ (k + 1) = clmul (2 * q + (if x.rem.toNat.testBit (d - 1) then 1 else 0)) (2 ^ d ^^^ p.toNat) ^^^
      (divStep d p x).rem.toNat := by
  rw [divStep_rem_toNat _ _ _ hd]
  have hdd : 2 ^ d = 2 * 2 ^ (d - 1) := by rw [← Nat.pow_succ']; congr 1; omega
  have e2 : 2 ^ (k + 1) = 2 * 2 ^ k := by rw [Nat.pow_succ']
  rw [e2, h, two_mul_xor, ← clmul_double]
  by_cases hh : x.rem.toNat.testBit (d - 1)
  · simp only [hh, if_true]
    rw [two_mul_add_one_xor, clmul_xor, clmul_one]
    have hge := Nat.ge_two_pow_of_testBit hh
    have hm : 2 * x.rem.toNat = 2 ^ d ^^^ (2 * x.rem.toNat % 2 ^ d) := by
      rw [← two_pow_or_eq_xor (Nat.mod_lt _ (Nat.two_pow_pos d))]
      have := Nat.two_pow_add_eq_or_of_lt (i := d) (Nat.mod_lt (2 * x.rem.toNat) (Nat.two_pow_pos d)) 1
      rw [Nat.mul_one] at this
      rw [← this]
      have h1 : 2 * x.rem.toNat % 2 ^ d = 2 * x.rem.toNat - 2 ^ d := by
        rw [Nat.mod_eq_sub_mod (by omega), Nat.mod_eq_of_lt (by omega)]
      omega
    generalize 2 * x.rem.toNat % 2 ^ d = m at hm ⊢
    rw [hm]
    generalize clmul (2 * q) _ = c
    generalize p.toNat = pp
    generalize 2 ^ d = D
    rw [show c ^^^ (D ^^^ pp) ^^^ (m ^^^ pp) = c ^^^ (D ^^^ m) ^^^ (pp ^^^ pp) by ac_rfl, Nat.xor_self,
      Nat.xor_zero]
  · simp only [hh]
    have hlt : x.rem.toNat < 2 ^ (d - 1) := by
      by_contra hc
      apply hh
      exact Nat.testBit_of_two_pow_le_and_two_pow_add_one_gt (by omega)
        (by rw [show d - 1 + 1 = d by omega]; exact hx)
    rw [Nat.mod_eq_of_lt (by omega)]
    simp

end Sys2Proof.Machine
end

