-- ==== Sys2Proof/Laws/State.lean ====
section
/-! SUPPORT. One lemma per field per update of State, and of the registers where an update is conditional. -/

namespace Sys2Proof.Machine

variable (s : State) (r : Regs) (a : Response) (es : List Event)

@[simp] theorem setRegs_regs : (s.setRegs r).regs = r := rfl
@[simp] theorem setRegs_inReset : (s.setRegs r).inReset = s.inReset := rfl
@[simp] theorem setRegs_inputs : (s.setRegs r).inputs = s.inputs := rfl
@[simp] theorem setRegs_responses : (s.setRegs r).responses = s.responses := rfl
@[simp] theorem setRegs_self : s.setRegs s.regs = s := rfl
@[simp] theorem setRegs_setRegs (r' : Regs) : (s.setRegs r).setRegs r' = s.setRegs r' := rfl

@[simp] theorem respond_regs : (s.respond a).regs = s.regs := rfl
@[simp] theorem respond_inReset : (s.respond a).inReset = s.inReset := rfl
@[simp] theorem respond_inputs : (s.respond a).inputs = s.inputs := rfl
@[simp] theorem respond_responses : (s.respond a).responses = a :: s.responses := rfl

@[simp] theorem setInputs_regs : (s.setInputs es).regs = s.regs := rfl
@[simp] theorem setInputs_inReset : (s.setInputs es).inReset = s.inReset := rfl
@[simp] theorem setInputs_inputs : (s.setInputs es).inputs = es := rfl
@[simp] theorem setInputs_responses : (s.setInputs es).responses = s.responses := rfl

@[simp] theorem holdReset_regs : (holdReset s).regs = Regs.reset := rfl
@[simp] theorem holdReset_inReset : (holdReset s).inReset = true := rfl
@[simp] theorem holdReset_inputs : (holdReset s).inputs = s.inputs := rfl
@[simp] theorem holdReset_responses : (holdReset s).responses = s.responses := rfl

@[simp] theorem leaveReset_regs : (leaveReset s).regs = s.regs := rfl
@[simp] theorem leaveReset_inReset : (leaveReset s).inReset = false := rfl
@[simp] theorem leaveReset_inputs : (leaveReset s).inputs = s.inputs := rfl
@[simp] theorem leaveReset_responses : (leaveReset s).responses = s.responses := rfl

@[simp] theorem andThen_next (f : State → Result) : andThen (.next s) f = f s := rfl

/-- A next state of `andThen` comes from a next state of its first part. -/
theorem andThen_eq_next {o : Result} {f : State → Result} {t : State} (h : andThen o f = .next t) :
    ∃ u, o = .next u ∧ f u = .next t := by
  cases o with
  | next u => exact ⟨u, rfl, h⟩
  | fault e => cases h
  | refused e => cases h

/-- The record, field by field (60_exceptions.md R143): ERR and ECODE, nothing else. -/
@[simp] theorem record_err (code : ErrorCode) : (record code r).err = true := rfl
@[simp] theorem record_ecode (code : ErrorCode) : (record code r).ecode = if r.err then r.ecode else code := rfl
@[simp] theorem record_busy (code : ErrorCode) : (record code r).busy = r.busy := rfl
@[simp] theorem record_done (code : ErrorCode) : (record code r).done = r.done := rfl
@[simp] theorem record_qtrunc (code : ErrorCode) : (record code r).qtrunc = r.qtrunc := rfl
@[simp] theorem record_doneIe (code : ErrorCode) : (record code r).doneIe = r.doneIe := rfl
@[simp] theorem record_errIe (code : ErrorCode) : (record code r).errIe = r.errIe := rfl
@[simp] theorem record_poly (code : ErrorCode) : (record code r).poly = r.poly := rfl
@[simp] theorem record_n (code : ErrorCode) : (record code r).n = r.n := rfl
@[simp] theorem record_val (code : ErrorCode) : (record code r).val = r.val := rfl
@[simp] theorem record_rem (code : ErrorCode) : (record code r).rem = r.rem := rfl
@[simp] theorem record_quo (code : ErrorCode) : (record code r).quo = r.quo := rfl
@[simp] theorem record_refl (code : ErrorCode) : (record code r).refl = r.refl := rfl
@[simp] theorem record_wOp (code : ErrorCode) : (record code r).wOp = r.wOp := rfl
@[simp] theorem record_wPoly (code : ErrorCode) : (record code r).wPoly = r.wPoly := rfl
@[simp] theorem record_wDeg (code : ErrorCode) : (record code r).wDeg = r.wDeg := rfl
@[simp] theorem record_wRem (code : ErrorCode) : (record code r).wRem = r.wRem := rfl
@[simp] theorem record_wQuo (code : ErrorCode) : (record code r).wQuo = r.wQuo := rfl
@[simp] theorem record_wCnt (code : ErrorCode) : (record code r).wCnt = r.wCnt := rfl
@[simp] theorem record_wTrunc (code : ErrorCode) : (record code r).wTrunc = r.wTrunc := rfl
@[simp] theorem record_wVal (code : ErrorCode) : (record code r).wVal = r.wVal := rfl
@[simp] theorem record_wWid (code : ErrorCode) : (record code r).wWid = r.wWid := rfl

end Sys2Proof.Machine
end

