-- ==== Sys2Proof/Laws/Ops.lean ====
section
/-! SUPPORT. One lemma per shared operation, which says all it can do: word halves, register names, transactions. -/

namespace Sys2Proof.Machine

/-! ### Word halves (10_state.md R21) -/

theorem getLsbD_joinHalves (hi lo : Word) (i : Nat) :
    (joinHalves hi lo).getLsbD i = if i < 32 then lo.getLsbD i else hi.getLsbD (i - 32) :=
  BitVec.getLsbD_append

theorem getLsbD_loHalf (v : DWord) (i : Nat) : (loHalf v).getLsbD i = (decide (i < 32) && v.getLsbD i) := by
  simp [loHalf, BitVec.getLsbD_extractLsb']

theorem getLsbD_hiHalf (v : DWord) (i : Nat) : (hiHalf v).getLsbD i = (decide (i < 32) && v.getLsbD (32 + i)) := by
  simp [hiHalf, BitVec.getLsbD_extractLsb']

@[simp] theorem loHalf_joinHalves (hi lo : Word) : loHalf (joinHalves hi lo) = lo := by
  apply BitVec.eq_of_getLsbD_eq
  intro i h
  simp only [getLsbD_loHalf, getLsbD_joinHalves, h, if_true, decide_true, Bool.true_and]

@[simp] theorem hiHalf_joinHalves (hi lo : Word) : hiHalf (joinHalves hi lo) = hi := by
  apply BitVec.eq_of_getLsbD_eq
  intro i h
  simp only [getLsbD_hiHalf, getLsbD_joinHalves, h, show ¬ 32 + i < 32 by omega, show 32 + i - 32 = i by omega,
    if_false, decide_true, Bool.true_and]

@[simp] theorem joinHalves_halves (v : DWord) : joinHalves (hiHalf v) (loHalf v) = v := by
  apply BitVec.eq_of_getLsbD_eq
  intro i hi
  rw [getLsbD_joinHalves]
  split
  · rename_i h; simp only [getLsbD_loHalf, h, decide_true, Bool.true_and]
  · rename_i h
    simp only [getLsbD_hiHalf, show i - 32 < 32 by omega, show 32 + (i - 32) = i by omega, decide_true, Bool.true_and]

@[simp] theorem loHalf_setLo (v : DWord) (x : Word) : loHalf (setLo v x) = x := loHalf_joinHalves _ _
@[simp] theorem hiHalf_setLo (v : DWord) (x : Word) : hiHalf (setLo v x) = hiHalf v := hiHalf_joinHalves _ _
@[simp] theorem loHalf_setHi (v : DWord) (x : Word) : loHalf (setHi v x) = loHalf v := loHalf_joinHalves _ _
@[simp] theorem hiHalf_setHi (v : DWord) (x : Word) : hiHalf (setHi v x) = x := hiHalf_joinHalves _ _

/-! ### Register names -/

theorem RegName.ofOffset_offset (g : RegName) : RegName.ofOffset g.offset = some g := by
  cases g with
  | operand o => cases o <;> decide
  | result w => cases w <;> decide
  | _ => decide

theorem RegName.offset_aligned (g : RegName) : g.offset.extractLsb' 0 2 = 0#2 := by
  cases g with
  | operand o => cases o <;> decide
  | result w => cases w <;> decide
  | _ => decide

/-- The inverse: an offset maps to a register only at that register's own offset. -/
theorem RegName.offset_of_ofOffset {off : Offset} {g : RegName} (h : RegName.ofOffset off = some g) : g.offset = off := by
  have := List.find?_some h
  simpa using this

theorem locate_offset (g : RegName) : locate g.offset = .ok g := by
  simp [locate, RegName.offset_aligned, RegName.ofOffset_offset]

/-- The one place where `locate` answers: at a register's own offset. -/
theorem locate_eq_ok {off : Offset} {g : RegName} (h : locate off = .ok g) : off = g.offset := by
  unfold locate at h
  split at h
  · cases h
  · split at h
    · cases h
    · rename_i h2; cases h; exact (RegName.offset_of_ofOffset h2).symm

theorem route_read (g : RegName) : route (.read g.offset) = .ok (.read g) := by
  simp [route, locate_offset]

theorem route_write (g : RegName) (v : Word) : route (.write g.offset v 0b1111#4) = writeAccess g v := by
  simp [route, locate_offset]

/-- Every way `route` lets a transaction through: a read of a mapped word, or a full-word write to a writable one. -/
theorem route_eq_ok {t : Transaction} {a : Access} (h : route t = .ok a) :
    (∃ g, t = .read (RegName.offset g) ∧ a = .read g) ∨
      ∃ g v, t = .write (RegName.offset g) v 0b1111#4 ∧ writeAccess g v = .ok a := by
  cases t with
  | read off =>
    simp only [route] at h
    split at h
    · cases h
    · rename_i g hg
      cases h
      exact .inl ⟨g, by rw [locate_eq_ok hg], rfl⟩
  | write off v strb =>
    simp only [route] at h
    split at h
    · cases h
    · rename_i g hg
      split at h
      · cases h
      · rename_i hs
        have e : strb = 0b1111#4 := by by_contra hc; exact hs hc
        subst e
        exact .inr ⟨g, v, by rw [locate_eq_ok hg], h⟩

/-- An offset is either a register's own or misaligned, 0x1C, or 0x40 and above (10_state.md R20). -/
theorem locate_cases (off : Offset) : (∃ g, locate off = .ok g ∧ off = g.offset) ∨
    (∃ e, locate off = .error e ∧ (off.toNat % 4 ≠ 0 ∨ off.toNat = 0x1C ∨ 0x40 ≤ off.toNat)) := by
  have key : ∀ off : Offset, (∃ g ∈ RegName.all, locate off = .ok g ∧ off = g.offset) ∨
      (∃ e ∈ [BusError.misaligned, .unmapped], locate off = .error e ∧
        (off.toNat % 4 ≠ 0 ∨ off.toNat = 0x1C ∨ 0x40 ≤ off.toNat)) := by decide +kernel
  rcases key off with ⟨g, -, h⟩ | ⟨e, -, h⟩
  · exact .inl ⟨g, h⟩
  · exact .inr ⟨e, h⟩

/-! ### Transactions -/

/-- The registers after a command is issued. -/
def issue : Instr → Regs → Regs
  | .modred d, r => modredIssue d r
  | .reflect w src, r => reflectIssue w src r

theorem exec_eq (i : Instr) (s : State) : exec i s = .next (s.setRegs (issue i s.regs)) := by
  cases i <;> rfl

/-- The registers after a CMD write. -/
def commandRegs (c : Word) (r : Regs) : Regs :=
  match decode c with
  | .ok i => issue i r
  | .error e => record (if r.busy then .busy else errorOf e) r

theorem cmdWrite_eq (c : Word) (s : State) : cmdWrite c s = .next (s.setRegs (commandRegs c s.regs)) := by
  unfold cmdWrite commandRegs
  cases decode c with
  | ok i => exact exec_eq i s
  | error e => rfl

/-- The registers after an access. -/
def accessRegs : Access → Regs → Regs
  | .read _, r => r
  | .writeCtrl v, r => ctrlWrite v r
  | .writeStatus v, r => statusWrite v r
  | .writeCmd c, r => commandRegs c r
  | .writeOperand o v, r => operandWrite o v r

/-- The answer to an access. -/
def accessAnswer : Access → Regs → Response
  | .read g, r => .read false (readReg g r)
  | .writeCtrl _, _ => .write false
  | .writeStatus _, _ => .write false
  | .writeCmd _, _ => .write false
  | .writeOperand _ _, _ => .write false

theorem perform_eq (a : Access) (s : State) :
    perform a s = .next ((s.setRegs (accessRegs a s.regs)).respond (accessAnswer a s.regs)) := by
  cases a with
  | writeCmd c => simp [perform, cmdWrite_eq, accessRegs, accessAnswer]
  | _ => rfl

/-- The registers after a transaction: unchanged by a bus error (20_memory.md R58). -/
def hostRegs (t : Transaction) (r : Regs) : Regs :=
  match route t with
  | .error _ => r
  | .ok a => accessRegs a r

/-- The answer to a transaction. -/
def hostAnswer (t : Transaction) (r : Regs) : Response :=
  match route t with
  | .error _ => errorResponse t
  | .ok a => accessAnswer a r

/-- All that a host step does: outside reset it always answers, and changes registers and answers alone. -/
theorem hostStep_eq (t : Transaction) {s : State} (h : s.inReset = false) :
    hostStep t s = .next ((s.setRegs (hostRegs t s.regs)).respond (hostAnswer t s.regs)) := by
  unfold hostStep hostRegs hostAnswer
  rw [h]
  cases route t with
  | error e => rfl
  | ok a => exact perform_eq a s

theorem hostStep_inReset (t : Transaction) {s : State} (h : s.inReset = true) :
    hostStep t s = .refused .transactionDuringReset := by
  simp [hostStep, h]

theorem hostRegs_writeCmd (c : Word) (r : Regs) : hostRegs (.write RegName.cmd.offset c 0b1111#4) r = commandRegs c r := by
  simp [hostRegs, route_write, writeAccess, accessRegs]

end Sys2Proof.Machine
end

