-- ==== Sys2Proof/Laws/Step.lean ====
section
/-! SUPPORT. Once and for all what a step can do: a move of the host or of reset, then at most one engine step. -/

namespace Sys2Proof.Machine

/-- One more step at the end of a run. -/
theorem run_succ_last {k : Nat} {s t : State} (h : run k s = .next t) : run (k + 1) s = step t := by
  induction k generalizing s with
  | zero =>
    have e : s = t := by cases h; rfl
    rw [e]
    show andThen (step t) (run 0) = step t
    cases step t <;> rfl
  | succ k ih =>
    obtain ⟨u, hu, h⟩ := andThen_eq_next h
    show andThen (step s) (run (k + 1)) = step t
    rw [hu]
    exact ih h

/-- A run is a run and then the rest of it. -/
theorem run_add {j k : Nat} {s t : State} (h : run j s = .next t) : run (j + k) s = run k t := by
  induction j generalizing s with
  | zero => cases h; simp
  | succ j ih =>
    obtain ⟨u, hu, h⟩ := andThen_eq_next h
    rw [show j + 1 + k = (j + k) + 1 by omega]
    show andThen (step s) (run (j + k)) = run k t
    rw [hu]
    exact ih h

/-- The access ends a command in flight without its results: ABORT or SRST (40_host_access.md R93). -/
def Access.stops : Access → Bool
  | .read _ => false
  | .writeCtrl v => v.getLsbD 8 || v.getLsbD 9
  | .writeStatus _ => false
  | .writeCmd _ => false
  | .writeOperand _ _ => false

/-- What the host or reset can make of the registers in one step. The Bool says whether it may end a command. -/
inductive HostMove (r : Regs) : Bool → Regs → Prop
  | quiet : HostMove r false r
  | access (a : Access) : HostMove r a.stops (accessRegs a r)
  | reset : HostMove r true Regs.reset

theorem writeAccess_stops {g : RegName} {v : Word} {a : Access} (h : writeAccess g v = .ok a) (ha : a.stops = true) :
    g = .ctrl ∧ (v.getLsbD 8 || v.getLsbD 9) = true := by
  cases g <;> simp [writeAccess] at h <;> subst h <;> simp_all [Access.stops]

theorem route_stops {t : Transaction} {a : Access} (h : route t = .ok a) (ha : a.stops = true) : t.stops = true := by
  cases t with
  | read off =>
    simp only [route] at h
    split at h
    · cases h
    · cases h; cases ha
  | write off v strb =>
    simp only [route] at h
    split at h
    · cases h
    · rename_i g hg
      split at h
      · cases h
      · rename_i hs
        obtain ⟨rfl, hv⟩ := writeAccess_stops h ha
        have : strb = 0b1111#4 := by by_contra hc; exact hs hc
        simp [Transaction.stops, locate_eq_ok hg, this] at hv ⊢
        exact hv

/-- The host's move in a transaction. -/
theorem hostRegs_move (t : Transaction) (r : Regs) : ∃ b, HostMove r b (hostRegs t r) ∧ (b = true → t.stops = true) := by
  unfold hostRegs
  cases h : route t with
  | error e => exact ⟨false, .quiet, by simp⟩
  | ok a => exact ⟨a.stops, .access a, fun ha => route_stops h ha⟩

/-- The engine's turn changes registers alone, and only while a command is in flight. -/
theorem engineStep_eq_next {s t : State} (h : engineStep s = .next t) :
    t = s ∨ (s.inReset = false ∧ s.regs.busy = true ∧ ∃ r, engineRegs s.regs = some r ∧ t = s.setRegs r) := by
  unfold engineStep at h
  split at h
  · exact .inl (by cases h; rfl)
  · rename_i hb
    simp only [Bool.or_eq_true, Bool.not_eq_true', not_or, Bool.not_eq_true, Bool.not_eq_false] at hb
    split at h
    · rename_i r hr
      exact .inr ⟨hb.1, hb.2, r, hr, by cases h; rfl⟩
    · cases h

/-- The engine's step on a command in flight. -/
theorem engineStep_busy {s : State} {r : Regs} (hr : s.inReset = false) (hb : s.regs.busy = true)
    (h : engineRegs s.regs = some r) : engineStep s = .next (s.setRegs r) := by
  simp [engineStep, hr, hb, h]

/-- Nothing happens while idle (40_host_access.md R100). -/
theorem engineStep_idle {s : State} (hb : s.regs.busy = false) : engineStep s = .next s := by
  simp [engineStep, hb]

/-- What a clock cycle does outside reset. -/
theorem cycle_eq_next {t? : Option Transaction} {s t : State} (hr : s.inReset = false)
    (h : cycle t? s = .next t) :
    t.inReset = false ∧ t.inputs = s.inputs ∧
      ∃ b r, HostMove s.regs b r ∧ (b = true → ∃ tr, t? = some tr ∧ tr.stops = true) ∧
        (t.regs = r ∨ (s.regs.busy = true ∧ r.busy = true ∧ engineRegs r = some t.regs)) := by
  obtain ⟨u, hu, h⟩ := andThen_eq_next h
  have hmove : u.inReset = false ∧ u.inputs = s.inputs ∧ ∃ b, HostMove s.regs b u.regs ∧
      (b = true → ∃ tr, t? = some tr ∧ tr.stops = true) := by
    cases t? with
    | none => cases hu; exact ⟨hr, rfl, false, .quiet, by simp⟩
    | some tr =>
      rw [hostPart, hostStep_eq tr hr] at hu
      cases hu
      obtain ⟨b, hb, hs⟩ := hostRegs_move tr s.regs
      exact ⟨hr, rfl, b, hb, fun h => ⟨tr, rfl, hs h⟩⟩
  obtain ⟨hur, hui, b, hb, hs⟩ := hmove
  split at h
  · rename_i hsb
    rcases engineStep_eq_next h with rfl | ⟨-, hbusy, r, hr', rfl⟩
    · exact ⟨hur, hui, b, t.regs, hb, hs, .inl rfl⟩
    · exact ⟨hur, hui, b, u.regs, hb, hs, .inr ⟨hsb, hbusy, hr'⟩⟩
  · cases h
    exact ⟨hur, hui, b, _, hb, hs, .inl rfl⟩

/-- A host step, outside reset: the registers and the answer change as the transaction says. -/
theorem step_host {s : State} {rest : List Event} {t : Transaction} (hr : s.inReset = false)
    (hi : s.inputs = .host t :: rest) :
    step s = .next (s.answered rest (hostRegs t s.regs) (hostAnswer t s.regs)) := by
  simp only [step, advance, hi, runEvent]
  rw [hostStep_eq _ (by simpa using hr)]
  rfl

/-- An engine step on a command in flight, scheduled. -/
theorem step_engine {s : State} {rest : List Event} {r : Regs} (hr : s.inReset = false)
    (hi : s.inputs = .engine :: rest) (hb : s.regs.busy = true) (h : engineRegs s.regs = some r) :
    step s = .next { s with inputs := rest, regs := r } := by
  simp only [step, advance, hi, runEvent]
  rw [engineStep_busy (by simpa using hr) (by simpa using hb) (by simpa using h)]
  rfl

/-- An engine step on a command in flight, with nothing scheduled. -/
theorem step_unscheduled {s : State} {r : Regs} (hr : s.inReset = false) (hi : s.inputs = [])
    (hb : s.regs.busy = true) (h : engineRegs s.regs = some r) : step s = .next (s.setRegs r) := by
  simp only [step, advance, hi]
  exact engineStep_busy hr hb h

/-- The engine's three steps. -/
theorem engineRegs_iterate {r : Regs} (ho : r.wOp = .modred) (hc : r.wCnt ≠ 0#32) (h1 : 1 ≤ r.wDeg.toNat)
    (h2 : r.wDeg.toNat ≤ 64) : engineRegs r = some { modredIterate r with wCnt := r.wCnt - 1#32 } := by
  simp [engineRegs, hc, ho, h1, h2]

theorem engineRegs_modred_done {r : Regs} (ho : r.wOp = .modred) (hc : r.wCnt = 0#32) :
    engineRegs r = some (completeCommon (modredComplete r)) := by
  simp [engineRegs, hc, completeRegs, ho]

theorem engineRegs_reflect_done {r : Regs} (ho : r.wOp = .reflect) (hc : r.wCnt = 0#32) (h1 : 1 ≤ r.wWid.toNat)
    (h2 : r.wWid.toNat ≤ 64) : engineRegs r = some (completeCommon (reflectComplete r)) := by
  simp [engineRegs, hc, completeRegs, ho, h1, h2]

/-- Every step of the engine is one of the three. -/
theorem engineRegs_cases {r r' : Regs} (h : engineRegs r = some r') :
    (r.wOp = .modred ∧ r.wCnt ≠ 0#32 ∧ 1 ≤ r.wDeg.toNat ∧ r.wDeg.toNat ≤ 64 ∧
      r' = { modredIterate r with wCnt := r.wCnt - 1#32 }) ∨
    (r.wOp = .modred ∧ r.wCnt = 0#32 ∧ r' = completeCommon (modredComplete r)) ∨
    (r.wOp = .reflect ∧ r.wCnt = 0#32 ∧ 1 ≤ r.wWid.toNat ∧ r.wWid.toNat ≤ 64 ∧
      r' = completeCommon (reflectComplete r)) := by
  unfold engineRegs completeRegs at h
  split at h
  · rename_i hc
    split at h
    · rename_i hg; cases h; exact .inl ⟨hg.1, hc, hg.2.1, hg.2.2, rfl⟩
    · cases h
  · rename_i hc
    have hc0 : r.wCnt = 0#32 := by by_contra hne; exact hc hne
    split at h
    · cases h
    · rename_i ho; cases h; exact .inr (.inl ⟨ho, hc0, rfl⟩)
    · rename_i ho
      split at h
      · rename_i hw; cases h; exact .inr (.inr ⟨ho, hc0, hw.1, hw.2, rfl⟩)
      · cases h

/-- ALL THAT A STEP CAN DO: the host or reset makes one move, then the engine takes at most one step. A move that may end a
command comes from an event that stops commands; and what is in reset afterwards holds reset values or was in reset. -/
theorem step_cases {s t : State} (h : step s = .next t) :
    (∃ b r, HostMove s.regs b r ∧ (b = true → ∃ e rest, s.inputs = e :: rest ∧ e.stops = true) ∧
      (t.regs = r ∨ (s.regs.busy = true ∧ r.busy = true ∧ engineRegs r = some t.regs))) ∧
    (t.inReset = true → t.regs = Regs.reset ∨ (s.inReset = true ∧ t.regs = s.regs)) := by
  unfold step advance at h
  split at h
  · rcases engineStep_eq_next h with rfl | ⟨hr, hbusy, r, hr', rfl⟩
    · exact ⟨⟨false, _, .quiet, by simp, .inl rfl⟩, fun hr => .inr ⟨hr, rfl⟩⟩
    · exact ⟨⟨false, _, .quiet, by simp, .inr ⟨hbusy, hbusy, hr'⟩⟩, fun hr2 => by simp [hr] at hr2⟩
  · rename_i e rest hin
    cases e with
    | host tr =>
      simp only [runEvent] at h
      cases hr : s.inReset with
      | true => rw [hostStep_inReset tr (by simpa using hr)] at h; cases h
      | false =>
        rw [hostStep_eq tr (by simpa using hr)] at h
        cases h
        obtain ⟨b, hb, hs⟩ := hostRegs_move tr s.regs
        exact ⟨⟨b, _, hb, fun hbt => ⟨_, rest, hin, hs hbt⟩, .inl rfl⟩, fun h2 => by simp [hr] at h2⟩
    | engine =>
      rcases engineStep_eq_next h with rfl | ⟨hr, hbusy, r, hr', rfl⟩
      · exact ⟨⟨false, _, .quiet, by simp, .inl rfl⟩, fun hr => .inr ⟨hr, rfl⟩⟩
      · exact ⟨⟨false, _, .quiet, by simp, .inr ⟨hbusy, hbusy, hr'⟩⟩, fun hr2 => by
          simp only [setRegs_inReset] at hr2; rw [hr] at hr2; cases hr2⟩
    | edge p =>
      simp only [runEvent, clockEdge] at h
      split at h
      · split at h
        · cases h
        · split at h
          · cases h
            exact ⟨⟨false, _, .quiet, by simp, .inl rfl⟩, fun h2 => by simp at h2⟩
          · rename_i hn
            cases h
            exact ⟨⟨true, _, .reset, fun _ => ⟨_, rest, hin, by simp [Event.stops, hn]⟩, .inl rfl⟩, fun _ => .inl rfl⟩
      · rename_i hn
        simp only [Bool.or_eq_true, Bool.not_eq_true', not_or, Bool.not_eq_false, Bool.not_eq_true,
          setInputs_inReset] at hn
        obtain ⟨htr, -, b, r, hb, hs, hregs⟩ := cycle_eq_next (by simpa using hn.2) h
        refine ⟨⟨b, r, hb, fun hbt => ?_, hregs⟩, fun h2 => by simp [htr] at h2⟩
        obtain ⟨tr, htr2, hst⟩ := hs hbt
        exact ⟨_, rest, hin, by simp [Event.stops, htr2, hst]⟩
    | poll =>
      obtain ⟨u, hu, h⟩ := andThen_eq_next h
      cases hr : s.inReset with
      | true =>
        simp [cycle, hostPart, hostStep, andThen, hr] at hu
      | false =>
        obtain ⟨htr, -, b, r, hb, hs, hregs⟩ := cycle_eq_next (by simpa using hr) hu
        have hbf : b = false := by
          cases b with
          | false => rfl
          | true =>
            obtain ⟨tr, htr2, hst⟩ := hs rfl
            cases htr2; cases hst
        subst hbf
        have hreg : t.regs = u.regs ∧ t.inReset = u.inReset := by
          split at h <;> cases h <;> exact ⟨rfl, rfl⟩
        rw [hreg.1, hreg.2]
        exact ⟨⟨false, r, hb, by simp, hregs⟩, fun h2 => by simp [htr] at h2⟩
    | assertReset =>
      cases h
      exact ⟨⟨true, _, .reset, fun _ => ⟨_, rest, hin, rfl⟩, .inl rfl⟩, fun _ => .inl rfl⟩
    | releaseReset =>
      cases h
      exact ⟨⟨false, _, .quiet, by simp, .inl rfl⟩, fun h2 => by simp at h2⟩

end Sys2Proof.Machine
end

