-- ==== Sys2Proof/Laws/Invariant.lean ====
section
/-! SUPPORT. Each operation on the registers keeps their invariant, and a command in flight has an engine step. -/

namespace Sys2Proof.Machine

theorem Regs.reset_inv : Regs.reset.Inv := by constructor <;> decide

theorem record_inv {c : ErrorCode} {r : Regs} (hc : c ≠ .none) (h : r.Inv) : (record c r).Inv where
  busy_iff := h.busy_iff
  ecode_none := by simp
  ecode_some := fun _ => by
    simp only [record_ecode]
    split
    · rename_i he; exact h.ecode_some he
    · exact hc
  busy_not_done := h.busy_not_done
  cnt_modred := h.cnt_modred
  degree := h.degree
  confined := h.confined
  width := h.width

theorem abort_inv {r : Regs} (h : r.Inv) : (abort r).Inv := by
  unfold abort
  split
  · apply record_inv (by decide)
    exact { h with
      busy_iff := by simp
      busy_not_done := by simp
      cnt_modred := by simp
      degree := by simp
      confined := by simp
      width := by simp }
  · exact h

theorem ctrlWrite_inv {v : Word} {r : Regs} (h : r.Inv) : (ctrlWrite v r).Inv := by
  unfold ctrlWrite
  have h1 : Regs.Inv { r with doneIe := v.getLsbD 0, errIe := v.getLsbD 1 } := { h with }
  split
  · exact Regs.reset_inv
  · dsimp only; split
    · exact abort_inv h1
    · exact h1

theorem statusWrite_inv {v : Word} {r : Regs} (h : r.Inv) : (statusWrite v r).Inv := by
  unfold statusWrite
  exact { h with
    ecode_none := by dsimp only; split <;> [simp; exact h.ecode_none]
    ecode_some := by dsimp only; split <;> [simp; exact h.ecode_some]
    busy_not_done := fun hb => by dsimp only; split <;> [rfl; exact h.busy_not_done hb] }

theorem operandWrite_inv {o : OperandWord} {v : Word} {r : Regs} (h : r.Inv) : (operandWrite o v r).Inv := by
  cases o <;> exact { h with }

theorem issue_inv {i : Instr} {r : Regs} (h : r.Inv) : (issue i r).Inv := by
  cases i with
  | modred d =>
    show (modredIssue d r).Inv
    unfold modredIssue
    split; · exact record_inv (by decide) h
    split; · exact record_inv (by decide) h
    rename_i hb hd
    have h1 : 1 ≤ d.toNat := by
      by_contra hc; exact hd (.inl (BitVec.eq_of_toNat_eq (by simp; omega)))
    have h2 : d.toNat ≤ 64 := by
      by_contra hc; exact hd (.inr (by omega))
    have hp := and_mask_lt r.poly h2
    unfold modredAccept acceptCommon
    dsimp only
    split <;> exact { h with
      busy_iff := by simp
      busy_not_done := by simp
      cnt_modred := by simp
      degree := fun _ => ⟨h1, h2⟩
      confined := fun _ => ⟨hp, hp⟩
      width := by simp }
  | reflect w src =>
    show (reflectIssue w src r).Inv
    unfold reflectIssue
    split; · exact record_inv (by decide) h
    split; · exact record_inv (by decide) h
    rename_i hb hd
    have h1 : 1 ≤ w.toNat := by
      by_contra hc; exact hd (.inl (BitVec.eq_of_toNat_eq (by simp; omega)))
    have h2 : w.toNat ≤ 64 := by
      by_contra hc; exact hd (.inr (by omega))
    split
    · exact record_inv (by decide) h
    · unfold reflectAccept acceptCommon
      exact { h with
      busy_iff := by simp
      busy_not_done := by simp
      cnt_modred := by simp
      degree := by simp
      confined := by simp
      width := fun _ => ⟨h1, h2⟩ }

theorem commandRegs_inv {c : Word} {r : Regs} (h : r.Inv) : (commandRegs c r).Inv := by
  unfold commandRegs
  split
  · exact issue_inv h
  · apply record_inv _ h
    split
    · decide
    · rename_i e _ _; cases e <;> decide

theorem accessRegs_inv {a : Access} {r : Regs} (h : r.Inv) : (accessRegs a r).Inv := by
  cases a with
  | read g => exact h
  | writeCtrl v => exact ctrlWrite_inv h
  | writeStatus v => exact statusWrite_inv h
  | writeCmd c => exact commandRegs_inv h
  | writeOperand o v => exact operandWrite_inv h

theorem HostMove.inv {r r' : Regs} {b : Bool} (m : HostMove r b r') (h : r.Inv) : r'.Inv := by
  cases m with
  | quiet => exact h
  | access a => exact accessRegs_inv h
  | reset => exact Regs.reset_inv

theorem engineRegs_inv {r r' : Regs} (he : engineRegs r = some r') (h : r.Inv) : r'.Inv := by
  rcases engineRegs_cases he with ⟨ho, hc, h1, h2, rfl⟩ | ⟨ho, hc, rfl⟩ | ⟨ho, hc, h1, h2, rfl⟩
  · have hcf := h.confined ho
    exact { h with
      cnt_modred := fun _ => ho
      confined := fun _ => ⟨hcf.1, divStep_rem_lt _ h2 hcf.1⟩ }
  · exact { h with
      busy_iff := by simp [completeCommon]
      busy_not_done := by simp [completeCommon]
      cnt_modred := fun hne => absurd hc hne
      degree := by simp [completeCommon]
      confined := by simp [completeCommon]
      width := by simp [completeCommon] }
  · exact { h with
      busy_iff := by simp [completeCommon]
      busy_not_done := by simp [completeCommon]
      cnt_modred := fun hne => absurd hc hne
      degree := by simp [completeCommon]
      confined := by simp [completeCommon]
      width := by simp [completeCommon] }

theorem engineRegs_total {r : Regs} (h : r.Inv) (hb : r.busy = true) : ∃ r', engineRegs r = some r' := by
  by_cases hc : r.wCnt = 0#32
  · cases ho : r.wOp with
    | none => exact absurd ho (h.busy_iff.1 hb)
    | modred => exact ⟨_, engineRegs_modred_done ho hc⟩
    | reflect => exact ⟨_, engineRegs_reflect_done ho hc (h.width ho).1 (h.width ho).2⟩
  · have ho := h.cnt_modred hc
    exact ⟨_, engineRegs_iterate ho hc (h.degree ho).1 (h.degree ho).2⟩

/-- While a command is in flight a CMD write is only the record of ECODE 6 (40_host_access.md R95, 60_exceptions.md R144). -/
theorem commandRegs_busy (c : Word) {r : Regs} (hb : r.busy = true) : commandRegs c r = record .busy r := by
  unfold commandRegs
  split
  · rename_i i _
    cases i <;> simp [issue, modredIssue, reflectIssue, hb]
  · simp [hb]

end Sys2Proof.Machine
end

