-- ==== Sys2Proof/Laws/PerInstr.lean ====
section
/-! SUPPORT. Statements about every command as syntax, one lemma per constructor. -/

namespace Sys2Proof.Laws.OpcodeField

/-- The encoded word carries the command's opcode (30_encoding.md R72) and no reserved bit (R75). -/
def Statement (i : Instr) : Prop :=
  fieldOpc (encode i) = (match i with | .modred _ => 1#4 | .reflect _ _ => 2#4) ∧
    fieldHigh (encode i) = 0#18 ∧ fieldBit11 (encode i) = 0#1

theorem modred (d : Size) : Statement (.modred d) :=
  ⟨fieldOpc_encode_modred d, fieldHigh_encode_modred d, fieldBit11_encode_modred d⟩

theorem reflect (w : Size) (s : Src) : Statement (.reflect w s) :=
  ⟨fieldOpc_encode_reflect w s, fieldHigh_encode_reflect w s, fieldBit11_encode_reflect w s⟩

end Sys2Proof.Laws.OpcodeField
end

