-- ==== Sys2Proof/Laws/Platform.lean ====
section
/-! SUPPORT. What a block's step can do to its platform, and which addresses a window holds. -/

namespace Sys2Proof.Machine

/-- An address in a window is the window's base plus its offset. -/
theorem windowOffset_eq_some {base a : Nat} {off : Offset} : windowOffset base a = some off ↔ a = hostAddress base off := by
  have := off.isLt
  unfold windowOffset hostAddress
  split
  · rw [Option.some_inj]
    constructor
    · rintro rfl
      simp only [BitVec.toNat_ofNat]
      omega
    · intro h
      apply BitVec.eq_of_toNat_eq
      simp only [BitVec.toNat_ofNat]
      omega
  · simp only [reduceCtorEq, false_iff]
    omega

/-- A window that lies apart holds none of another's addresses. -/
theorem windowOffset_eq_none {base a : Nat} : windowOffset base a = none ↔ a < base ∨ base + 256 ≤ a := by
  unfold windowOffset
  split <;> simp <;> omega

theorem Platform.route_cons (b : Block) (p : Platform) (a : Nat) : Platform.route (b :: p) a =
    match windowOffset b.base a with
    | some off => some (0, off)
    | none => (Platform.route p a).map fun r => (r.1 + 1, r.2) := rfl

theorem Platform.stepBlock_at {p : Platform} {k : Nat} {b : Block} {f : State → Result} {t : State} (hk : p[k]? = some b)
    (h : f b.state = .next t) : p.stepBlock k f = .next (p.set k { b with state := t }) := by
  simp [Platform.stepBlock, hk, h]

/-- All that a block's step can do: nothing, where no block stands, or set that block's state. -/
theorem Platform.stepBlock_eq_next {p p' : Platform} {k : Nat} {f : State → Result} (h : p.stepBlock k f = .next p') :
    p' = p ∨ ∃ b t, p[k]? = some b ∧ f b.state = .next t ∧ p' = p.set k { b with state := t } := by
  unfold Platform.stepBlock at h
  split at h
  · cases h; exact .inl rfl
  · rename_i b hb
    split at h
    · rename_i t ht; cases h; exact .inr ⟨b, t, hb, ht, rfl⟩
    · cases h
    · cases h

@[simp] theorem Platform.length_reset (bases : List Nat) : (Platform.reset bases).length = bases.length := by
  simp [Platform.reset]

end Sys2Proof.Machine
end

