-- ==== Sys2Proof/Tests/Slice0.lean ====
section
/-! SUPPORT. Tests on fixed values, from the encodings of 30_encoding.md and the vectors of 95_test_vectors.md, and for every
statement with hypotheses a witness that meets them. -/

namespace Sys2Proof.Machine.Test

/-! ### Well-formed commands (30_encoding.md R73, R74, R81) -/

theorem test_wellFormed_degree_zero : (Instr.modred 0#7).wellFormed = false := by decide
theorem test_wellFormed_degree_65 : (Instr.modred 65#7).wellFormed = false := by decide
theorem test_wellFormed_width_zero : (Instr.reflect 0#7 .val).wellFormed = false := by decide
theorem test_wellFormed_width_65 : (Instr.reflect 65#7 .val).wellFormed = false := by decide
theorem test_wellFormed_src_reserved : (Instr.reflect 32#7 .reserved).wellFormed = false := by decide
theorem test_wellFormed_bounds : (Instr.modred 1#7).wellFormed = true ∧ (Instr.modred 64#7).wellFormed = true ∧
    (Instr.reflect 1#7 .val).wellFormed = true ∧ (Instr.reflect 64#7 .quo).wellFormed = true := by decide

/-! ### Decoding: words written out from 30_encoding.md R71 as high18, SRC, bit 11, SIZE, OPC -/

/-- MODRED d = 32 (E-01): SIZE 0100000, OPC 0001. -/
theorem test_decode_modred_32 : decode 0b000000000000000000_00_0_0100000_0001#32 = .ok (.modred 32#7) := by decide
/-- MODRED d = 64 (E-02): SIZE 1000000. -/
theorem test_decode_modred_64 : decode 0b000000000000000000_00_0_1000000_0001#32 = .ok (.modred 64#7) := by decide
/-- REFLECT w = 33, QUO (E-07): SRC 10, SIZE 0100001, OPC 0010. -/
theorem test_decode_reflect_33_quo : decode 0b000000000000000000_10_0_0100001_0010#32 = .ok (.reflect 33#7 .quo) := by decide
/-- REFLECT w = 32, REM (E-06): SRC 01. -/
theorem test_decode_reflect_32_rem : decode 0b000000000000000000_01_0_0100000_0010#32 = .ok (.reflect 32#7 .rem) := by decide
/-- REFLECT w = 3, VAL (E-10). -/
theorem test_decode_reflect_3_val : decode 0b000000000000000000_00_0_0000011_0010#32 = .ok (.reflect 3#7 .val) := by decide

/-- E-29: OPC 0, 0, 3, 15, 15. -/
theorem test_decode_illop : [0x00000000#32, 0x00000200#32, 0x00000203#32, 0x0000020F#32, 0xFFFFFFFF#32].map decode =
    List.replicate 5 (.error .illop) := by decide
/-- E-19 to E-26: each reserved bit. -/
theorem test_decode_rsvd : [0x00001201#32, 0x00002201#32, 0x00000A01#32, 0x00000A02#32, 0x00004201#32, 0x80000201#32,
    0x80000002#32, 0x00001001#32].map decode = List.replicate 8 (.error .rsvd) := by decide

theorem test_decodeTableWord : decodeTableWord 32 0x201 = some (.modred 32#7) ∧ decodeTableWord 16 0x1202 = some (.reflect 32#7 .rem) ∧
    decodeTableWord 32 0x80000201 = none := by decide

/-! ### States for one step -/

/-- POLY = 3, N = 7, VAL = 0xB4 on an idle block, with this schedule. -/
def idle (es : List Event) : State :=
  { State.reset with regs := { Regs.reset with poly := 3#64, n := 7#32, val := 0xB4#64 }, inputs := es }

/-- The same with MODRED of degree 3 just accepted: W_CNT = 4. -/
def modredBusy (es : List Event) : State := (idle es).setRegs (modredIssue 3#7 (idle es).regs)

/-- The same with N = 3: W_CNT = 0. -/
def modredLast (es : List Event) : State := (idle es).setRegs (modredIssue 3#7 { (idle es).regs with n := 3#32 })

/-- The same with REFLECT of width 8 of VAL just accepted. -/
def reflectBusy (es : List Event) : State := (idle es).setRegs (reflectIssue 8#7 .val (idle es).regs)

/-- In reset. -/
def held (es : List Event) : State := { State.reset with inReset := true, inputs := es }

/-- A CMD write. -/
def cmd (c : Word) : Event := .host (fullWrite .cmd c)

/-- The registers of a next state. -/
def regsOf : Result → Option Regs
  | .next t => some t.regs
  | .fault _ => none
  | .refused _ => none

/-- The newest answer of a next state. -/
def answerOf : Result → Option Response
  | .next t => t.responses.head?
  | .fault _ => none
  | .refused _ => none

/-- The states above meet the invariant. -/
theorem idle_inv (es : List Event) : (idle es).Inv where
  regs := by constructor <;> simp [idle, Regs.reset]
  reset := by simp [idle, State.reset]

theorem modredBusy_inv (es : List Event) : (modredBusy es).Inv where
  regs := issue_inv (i := .modred 3#7) (idle_inv es).regs
  reset := by simp [modredBusy, idle, State.reset]

theorem modredLast_inv (es : List Event) : (modredLast es).Inv where
  regs := issue_inv (i := .modred 3#7) (operandWrite_inv (o := .n) (v := 3#32) (idle_inv es).regs)
  reset := by simp [modredLast, idle, State.reset]

theorem reflectBusy_inv (es : List Event) : (reflectBusy es).Inv where
  regs := issue_inv (i := .reflect 8#7 .val) (idle_inv es).regs
  reset := by simp [reflectBusy, idle, State.reset]

theorem held_inv (es : List Event) : (held es).Inv where
  regs := Regs.reset_inv
  reset := fun _ => rfl

/-! ### One command -/

/-- The decoder's instruction is the first to run after reset (E-01). -/
theorem test_withFetchWord_modred :
    (regsOf (step (State.reset.withFetchWord 32 0x201))).map (fun r => (r.busy, r.wOp, r.wDeg)) =
      some (true, .modred, 32#7) := by decide
theorem test_withFetchWord_reflect :
    (regsOf (step (State.reset.withFetchWord 32 0x402))).map (fun r => (r.busy, r.wOp, r.wWid)) =
      some (true, .reflect, 64#7) := by decide

/-- P5 line 4 (95_test_vectors.md): W_REM = 0b011, W_QUO = 1, W_CNT = 4, STATUS = 0x01. -/
theorem test_modred_accept : (regsOf (step (idle [cmd 0x31#32]))).map
    (fun r => (r.wRem, r.wQuo, r.wCnt, statusWord r)) = some (0b011#64, 1#64, 4#32, 0x01#32) := by decide
/-- P5, engine step 1: 0b110, 0b10, 3; and M-04, completed by one engine step: REM 3, QUO 1, STATUS 0x02. -/
theorem test_modred_engine : (regsOf (step (modredBusy []))).map (fun r => (r.wRem, r.wQuo, r.wCnt)) =
      some (0b110#64, 0b10#64, 3#32) ∧
    (regsOf (step (modredLast []))).map (fun r => (r.rem, r.quo, statusWord r)) = some (3#64, 1#64, 0x02#32) := by decide
/-- F-08: VAL = 0xB4, w = 8 gives 0x2D after one engine step. -/
theorem test_reflect_engine : (regsOf (step (reflectBusy []))).map (fun r => (r.refl, statusWord r)) =
    some (0x2D#64, 0x02#32) := by decide +kernel

/-- F-16, F-20: every byte; the high half dropped. -/
theorem test_reflect_vectors : reflect 0x0123456789ABCDEF#64 64 = 0xF7B3D591E6A2C480#64 ∧
    reflect 0x12345678#64 16 = 0x1E6A#64 := by decide +kernel
/-- M-02, M-19, M-27: n < d with POLY bits above d; the first truncated quotient; the top remainder bit at d = 64. -/
theorem test_modReduce_vectors : modReduce 2 0xF7#64 3 = { rem := 7#64, quo := 0#64, trunc := false } ∧
    modReduce 96 0x04C11DB7#64 32 = { rem := 0xF200AA66#64, quo := 0x04D101DF481B4E5A#64, trunc := true } ∧
    modReduce 127 0x1B#64 64 = { rem := 0x80000000000000AF#64, quo := 0x800000000000000D#64, trunc := false } := by
  decide +kernel

/-- STATUS after the rejections E-12, E-13, E-15, E-16, E-18, E-25, E-26, E-27, E-29. -/
theorem test_rejections : [0x00000001#32, 0x00000411#32, 0x00000002#32, 0x00000412#32, 0x00003202#32, 0x80000002#32,
    0x00001001#32, 0x00003002#32, 0xFFFFFFFF#32].map (fun c => (regsOf (step (idle [cmd c]))).map statusWord) =
    [some 0x34#32, some 0x34#32, some 0x44#32, some 0x44#32, some 0x54#32, some 0x24#32, some 0x24#32, some 0x44#32,
      some 0x14#32] := by decide
/-- E-30: a legal word while BUSY. -/
theorem test_busy_rejection : (regsOf (step (modredBusy [cmd 0x201#32]))).map statusWord = some 0x65#32 := by decide

/-! ### The host port -/

/-- B-01, B-05: ID, and the unmapped offsets. -/
theorem test_reads : [0x00#8, 0x0C#8, 0x1C#8, 0x40#8, 0xFC#8].map (fun o => answerOf (step (idle [.host (.read o)]))) =
    [some (.read false 0x47463244#32), some (.read false 0#32), some (.read true 0#32), some (.read true 0#32),
      some (.read true 0#32)] := by decide
/-- B-12: LO at the lower offset. -/
theorem test_operand_halves : (regsOf (step { State.reset with
    regs := { Regs.reset with poly := 0x04C11DB7#64 }, inputs := [.host (fullWrite (.operand .polyHi) 1#32)] })).map (·.poly) =
    some 0x0000000104C11DB7#64 := by decide
/-- S-04: bits 0, 3 and 6:4 of a STATUS write are ignored. -/
theorem test_status_write : statusWord (statusWrite 0x79#32
    { Regs.reset with done := true, err := true, qtrunc := true, ecode := .baddeg }) = 0x3E#32 := by decide
/-- S-09: an abort with enables: STATUS = 0x74, `irq` = 1. -/
theorem test_abort : (regsOf (step (modredBusy [.host (fullWrite .ctrl 0x103#32)]))).map
    (fun r => (ctrlWord r, statusWord r, irq r)) = some (3#32, 0x74#32, true) := by decide
/-- S-12: SRST wins. -/
theorem test_soft_reset : regsOf (step (modredBusy [.host (fullWrite .ctrl 0x303#32)])) = some Regs.reset := by decide
/-- B-13: byte lane 0 of VAL. -/
theorem test_window_byte : windowByte 0x20#8 { Regs.reset with val := 0x44332211#64 } = some 0x11#8 ∧
    windowByte 0x1C#8 Regs.reset = none := by decide

/-! ### Witnesses: for each statement with hypotheses, a state that meets them, clause by clause

The write of a CMD word, `fullWrite .cmd c`, is `.write 0x0C#8 c 0b1111#4`. -/

theorem witness_DecodeEncodeAgree : decode 0x2212#32 = .ok (.reflect 33#7 .quo) := by decide

theorem witness_StepRunsDecodedCommand : (idle [cmd 0x31#32]).inReset = false ∧
    (idle [cmd 0x31#32]).inputs = .host (.write 0x0C#8 0x31#32 0b1111#4) :: [] ∧ decode 0x31#32 = .ok (.modred 3#7) := by decide

theorem witness_CmdWriteFollowsCheck : (idle [cmd 0x31#32]).inReset = false ∧ check 0x31#32 (idle []).regs = .none ∧
    check 0x01#32 (idle []).regs ≠ .none ∧ check 0x31#32 (modredBusy []).regs ≠ .none := by decide

/-- The degree-0 word encodes no well-formed command. -/
theorem witness_IllegalWordsAreRejected : (idle [cmd 1#32]).inReset = false ∧
    ∀ i : Instr, i.wellFormed = true → encode i ≠ 1#32 := by
  refine ⟨rfl, fun i h he => ?_⟩
  cases i with
  | modred d => revert d; decide
  | reflect w s => cases s <;> revert w <;> decide

/-- One word for each clause of the order of faults, in a state that meets the hypotheses. -/
theorem witness_FirstFaultIsReported : (modredBusy [cmd 0#32]).inReset = false ∧ (modredBusy [cmd 0#32]).regs.err = false ∧
    (regsOf (step (modredBusy [cmd 0#32]))).map (·.ecode) = some .busy ∧
    [0x00000000#32, 0x00000003#32, 0x00000801#32, 0x00004002#32, 0x00001001#32, 0x00000001#32, 0x00000411#32, 0x00000002#32,
      0x00003412#32, 0x00003402#32, 0x00000401#32].map (fun c => (regsOf (step (idle [cmd c]))).map (·.ecode)) =
    [some .illop, some .illop, some .rsvd, some .rsvd, some .rsvd, some .baddeg, some .baddeg, some .badwid, some .badwid,
      some .badsrc, some .none] := by decide

/-- Legal degrees at both ends, idle. -/
theorem witness_ModredAcceptance : 1 ≤ (1#7).toNat ∧ (64#7).toNat ≤ 64 ∧ (idle []).regs.busy = false := by decide

theorem witness_ModredRejection : (modredBusy []).regs.busy = true ∧ (idle []).regs.busy = false ∧
    ((0#7).toNat = 0 ∧ 64 < (65#7).toNat) := by decide

theorem witness_EngineIteration : let s := modredBusy [.engine]
    s.inReset = false ∧ s.inputs = .engine :: [] ∧ s.regs.busy = true ∧ s.regs.wOp = .modred ∧ s.regs.wCnt ≠ 0#32 ∧
    1 ≤ s.regs.wDeg.toNat ∧ s.regs.wDeg.toNat ≤ 64 ∧ s.regs.wPoly.toNat < 2 ^ s.regs.wDeg.toNat ∧
    s.regs.wRem.toNat < 2 ^ s.regs.wDeg.toNat ∧
    2 ^ 3 = clmul 1 (2 ^ s.regs.wDeg.toNat ||| s.regs.wPoly.toNat) ^^^ s.regs.wRem.toNat := by decide

theorem witness_ModredCompletion : let s := modredLast [.engine]
    s.inReset = false ∧ s.inputs = .engine :: [] ∧ s.regs.busy = true ∧ s.regs.wOp = .modred ∧ s.regs.wCnt = 0#32 := by decide

theorem witness_ModredRunsToClosedForm : let s := idle (List.replicate 5 .engine ++ [.releaseReset])
    1 ≤ (3#7).toNat ∧ (3#7).toNat ≤ 64 ∧ s.regs.busy = false ∧ s.inReset = false ∧
    s.inputs = List.replicate (s.regs.n.toNat - (3#7).toNat + 1) .engine ++ [.releaseReset] ∧ 4 ≤ s.regs.n.toNat - (3#7).toNat := by
  decide

/-- A next state from a check on its registers. -/
theorem next_of_regsOf {o : Result} {f : Regs → Bool} (h : (regsOf o).map f = some true) : ∃ u, o = .next u ∧ f u.regs = true := by
  cases o with
  | next u => exact ⟨u, rfl, by simpa [regsOf] using h⟩
  | fault e => cases h
  | refused e => cases h

/-- A completed MODRED with n ≥ d and QTRUNC = 0: N = 7, d = 3. -/
theorem witness_CompletedModred : ∃ u, CompletedModred 3#7 (idle (List.replicate 5 .engine)) u ∧
    (3#7).toNat ≤ (idle []).regs.n.toNat ∧ u.regs.qtrunc = false :=
  ⟨_, ⟨by decide, by decide, rfl, rfl, ⟨[], rfl⟩, ⟨_, rfl, rfl⟩⟩, by decide, rfl⟩

/-- One with QTRUNC = 1: N = 67, d = 3, the first truncated quotient. -/
theorem witness_CompletedModred_truncated : ∃ s u, CompletedModred 3#7 s u ∧ (3#7).toNat ≤ s.regs.n.toNat ∧
    u.regs.qtrunc = true := by
  let s := (idle (List.replicate 65 .engine)).setRegs { (idle []).regs with n := 67#32 }
  obtain ⟨u, hu, hq⟩ := next_of_regsOf (o := run 65 (s.setRegs (modredIssue 3#7 s.regs))) (f := fun r => r.qtrunc)
    (by decide +kernel)
  exact ⟨s, u, ⟨by decide, by decide, rfl, rfl, ⟨[], rfl⟩, ⟨_, rfl, hu⟩⟩, by decide, hq⟩

/-- One with n < d: N = 7, d = 64; and one with n = d. -/
theorem witness_CompletedModred_below : ∃ u v, CompletedModred 64#7 (idle [.engine]) u ∧
    (idle []).regs.n.toNat < (64#7).toNat ∧ CompletedModred 7#7 (idle [.engine]) v ∧ (idle []).regs.n.toNat ≤ (7#7).toNat :=
  ⟨_, _, ⟨by decide, by decide, rfl, rfl, ⟨[], rfl⟩, ⟨_, rfl, rfl⟩⟩, by decide,
    ⟨by decide, by decide, rfl, rfl, ⟨[], rfl⟩, ⟨_, rfl, rfl⟩⟩, by decide⟩

theorem witness_ModredDegenerateCases : 1 ≤ (64#7).toNat ∧ (64#7).toNat ≤ 64 ∧ (idle [.engine]).regs.busy = false ∧
    (idle [.engine]).inReset = false ∧ (idle [.engine]).inputs = .engine :: [] ∧
    (idle [.engine]).regs.n.toNat ≤ (7#7).toNat ∧ (idle [.engine]).regs.n.toNat < (64#7).toNat := by decide

/-- Completed MODREDs of degree 1 with n ≥ 1 and either value of POLY[0]. -/
theorem witness_ModredDegreeOne : ∃ u v,
    CompletedModred 1#7 (idle (List.replicate 7 .engine)) u ∧ (idle []).regs.poly.getLsbD 0 = true ∧
    CompletedModred 1#7 ((idle (List.replicate 7 .engine)).setRegs { (idle []).regs with poly := 2#64 }) v ∧
    (2#64).getLsbD 0 = false ∧ 1 ≤ (idle []).regs.n.toNat :=
  ⟨_, _, ⟨by decide, by decide, rfl, rfl, ⟨[], rfl⟩, ⟨_, rfl, rfl⟩⟩, by decide,
    ⟨by decide, by decide, rfl, rfl, ⟨[], rfl⟩, ⟨_, rfl, rfl⟩⟩, by decide, by decide⟩

/-- Two states that agree on N and on the low 3 bits of POLY, and on nothing else. -/
theorem witness_ModredDependsOnMaskedOperandsOnly : ∃ u u',
    CompletedModred 3#7 (idle (List.replicate 5 .engine)) u ∧
    CompletedModred 3#7 ((idle (List.replicate 5 .engine)).setRegs
      { (idle []).regs with poly := 0xF3#64, val := 0#64, done := true }) u' ∧
    ∀ i, i < (3#7).toNat → (3#64).getLsbD i = (0xF3#64).getLsbD i :=
  ⟨_, _, ⟨by decide, by decide, rfl, rfl, ⟨[], rfl⟩, ⟨_, rfl, rfl⟩⟩,
    ⟨by decide, by decide, rfl, rfl, ⟨[], rfl⟩, ⟨_, rfl, rfl⟩⟩, by decide⟩

theorem witness_ReflectAcceptance : 1 ≤ (1#7).toNat ∧ (64#7).toNat ≤ 64 ∧ (idle []).regs.busy = false := by decide

theorem witness_ReflectRunsToResult : 1 ≤ (1#7).toNat ∧ (64#7).toNat ≤ 64 ∧ (idle [.engine]).regs.busy = false ∧
    (idle [.engine]).inReset = false ∧ (idle [.engine]).inputs = .engine :: [] ∧
    (Src.val ≠ .reserved ∧ Src.rem ≠ .reserved ∧ Src.quo ≠ .reserved) := by decide

theorem witness_ReflectRejection : (reflectBusy []).regs.busy = true ∧ (idle []).regs.busy = false ∧
    (0#7).toNat = 0 ∧ 64 < (65#7).toNat ∧ 1 ≤ (1#7).toNat ∧ (64#7).toNat ≤ 64 := by decide

theorem witness_ReflectIsAnInvolution : 1 ≤ 8 ∧ 8 ≤ 64 ∧ 0xB4#64 &&& ~~~(mask 8) = 0#64 := by decide

theorem witness_EngineIdlesWhenNotBusy : (idle [.engine]).regs.busy = false ∧ (idle [.engine]).inputs = .engine :: [] ∧
    (idle []).inReset = false ∧ (Pins.access (.read 0#8)).rstN = true ∧
    Pins.transaction? { Pins.access (.read 0#8) with psel := false } = none := by decide

theorem witness_UnscheduledStepIsTheEngines : (modredBusy []).inputs = [] := rfl

theorem witness_EveryCommandCompletes (es : List Event) : (modredBusy es).Inv ∧ (modredBusy es).inReset = false ∧
    (modredBusy es).regs.busy = true ∧ (modredBusy es).inputs = es ∧
    ((modredBusy []).regs.wCnt.toNat = 4 ∧ (reflectBusy []).regs.wCnt.toNat = 0) :=
  ⟨modredBusy_inv es, rfl, rfl, rfl, by decide⟩

theorem witness_ReflectCompletion : let s := reflectBusy [.engine]
    s.inReset = false ∧ s.inputs = .engine :: [] ∧ s.regs.busy = true ∧ s.regs.wOp = .reflect ∧ s.regs.wCnt = 0#32 ∧
    1 ≤ s.regs.wWid.toNat ∧ s.regs.wWid.toNat ≤ 64 := by decide

/-- A MODRED in flight under each kind of event: it goes on, it completes, it is aborted, it is reset. -/
theorem witness_ModredResultSurvivesInterleaving :
    ModredInFlight { rem := 1#64, quo := 0x17#64, trunc := false } (modredBusy []).regs ∧
    (modredBusy []).regs.done = false ∧
    (regsOf (step (modredBusy [cmd 0x31#32]))).map (·.busy) = some true ∧
    (regsOf (step (modredLast [.engine]))).map (·.done) = some true ∧
    (regsOf (step (modredBusy [.host (fullWrite .ctrl 0x100#32)]))).map (fun r => (r.busy, r.done)) = some (false, false) ∧
    regsOf (step (modredBusy [.assertReset])) = some Regs.reset := by
  refine ⟨⟨by decide, by decide, by decide, by decide, by decide⟩, by decide⟩

theorem witness_AcceptedModredLeadsToClosedForm : ∃ t, exec (.modred 3#7) (idle []) = .next t := ⟨_, rfl⟩

theorem witness_ReflectResultSurvivesInterleaving :
    ReflectInFlight 0x2D#64 (reflectBusy []).regs ∧ (reflectBusy []).regs.done = false ∧
    (regsOf (step (reflectBusy [cmd 0x31#32]))).map (·.busy) = some true ∧
    (regsOf (step (reflectBusy [.engine]))).map (·.done) = some true ∧
    (regsOf (step (reflectBusy [.host (fullWrite .ctrl 0x100#32)]))).map (fun r => (r.busy, r.done)) = some (false, false) := by
  refine ⟨⟨by decide, by decide, by decide, by decide, by decide +kernel⟩, by decide +kernel⟩

/-- A step for each of the four clauses. -/
theorem witness_ResultsChangeOnlyAtCompletionOrReset :
    (regsOf (step (idle [cmd 0x31#32]))).isSome = true ∧ (regsOf (step (idle [.assertReset]))).isSome = true ∧
    (regsOf (step (modredLast [.engine]))).isSome = true ∧ (regsOf (step (reflectBusy [.engine]))).isSome = true := by decide

/-- Each operand changed by its write, registers not at their reset values. -/
theorem witness_OperandsChangeOnlyByHostWrites :
    [RegName.operand .polyLo, .operand .polyHi, .operand .n, .operand .valLo, .operand .valHi, .ctrl].map
      (fun g => (regsOf (step (idle [.host (fullWrite g 9#32)]))).map
        (fun r => [decide (r.poly ≠ 3#64), decide (r.n ≠ 7#32), decide (r.val ≠ 0xB4#64), r.doneIe, decide (r ≠ Regs.reset)])) =
    [some [true, false, false, false, true], some [true, false, false, false, true],
      some [false, true, false, false, true], some [false, false, true, false, true], some [false, false, true, false, true],
      some [false, false, false, true, true]] := by decide

theorem witness_HostReadAnswersTheTable : (idle [.host (.read 0x3C#8)]).inReset = false ∧
    (idle [.host (.read 0x3C#8)]).inputs = .host (.read 0x3C#8) :: [] := by decide

/-- Each cause at the ends of its range, and the offsets next to them that have none. -/
theorem witness_BusErrorsChangeNothing :
    [0x01#8, 0x03#8, 0x1C#8, 0x40#8, 0xFF#8].all (fun o => decide (o.toNat % 4 ≠ 0 ∨ o.toNat = 0x1C ∨ 0x40 ≤ o.toNat)) = true ∧
    [0x00#8, 0x28#8, 0x3C#8].map (fun o => answerOf (step (idle [.host (.write o 1#32 0b1111#4)]))) =
      List.replicate 3 (some (.write true)) ∧
    [0x04#8, 0x08#8, 0x0C#8, 0x10#8, 0x18#8, 0x20#8, 0x24#8].map
      (fun o => answerOf (step (idle [.host (.write o 1#32 0b1111#4)]))) = List.replicate 7 (some (.write false)) ∧
    answerOf (step (idle [.host (.write 0x18#8 1#32 0b0011#4)])) = some (.write true) := by decide

theorem witness_OperandWriteStoresOneWord : [0x10#8, 0x14#8, 0x18#8, 0x20#8, 0x24#8].map
    (fun o => (regsOf (step (modredBusy [.host (.write o 0xFFFFFFFF#32 0b1111#4)]))).map (fun r => (r.poly, r.n, r.val))) =
    [some (0xFFFFFFFF#64, 7#32, 0xB4#64), some (0xFFFFFFFF00000003#64, 7#32, 0xB4#64), some (3#64, 0xFFFFFFFF#32, 0xB4#64),
      some (3#64, 7#32, 0xFFFFFFFF#64), some (3#64, 7#32, 0xFFFFFFFF000000B4#64)] := by decide

theorem witness_OperandReadsBackAsWritten :
    (idle [.host (fullWrite (.operand .valHi) 5#32), .host (.read (RegName.operand .valHi).offset)]).inputs =
      .host (.write (RegName.operand .valHi).offset 5#32 0b1111#4) :: .host (.read (RegName.operand .valHi).offset) :: [] := by
  decide

/-- CTRL writes: SRST with ABORT; the enables alone; ABORT when idle; ABORT in flight. -/
theorem witness_CtrlWriteEffects : (0x300#32).getLsbD 9 = true ∧
    ((0x003#32).getLsbD 9 = false ∧ (0x003#32).getLsbD 8 = false) ∧
    ((0x100#32).getLsbD 9 = false ∧ (0x100#32).getLsbD 8 = true) ∧
    (idle []).regs.busy = false ∧ (modredBusy []).regs.busy = true ∧ (modredBusy []).inReset = false := by decide

theorem witness_StatusWriteClears : (idle [.host (fullWrite .status 6#32)]).inReset = false ∧
    (idle [.host (fullWrite .status 6#32)]).inputs = .host (.write 0x08#8 6#32 0b1111#4) :: [] := by decide

/-- A clock edge with a transaction while a command is in flight and while none is, and one without a transaction. -/
theorem witness_CycleOrder_edge :
    (Pins.access (.read 0x08#8)).rstN = true ∧ (Pins.access (.read 0x08#8)).transaction? = some (.read 0x08#8) ∧
    (modredBusy []).regs.busy = true ∧ (idle []).regs.busy = false ∧ (idle []).inReset = false ∧
    (Pins.transaction? { Pins.access (.read 0x08#8) with penable := false }) = none := by decide

/-- The completing cycle of a MODRED and of a REFLECT, with any schedule. -/
theorem witness_CycleOrder_completion (es : List Event) : (modredLast es).Inv ∧ (reflectBusy es).Inv ∧
    (modredLast es).inReset = false ∧ (modredLast es).regs.busy = true ∧ (modredLast es).regs.wCnt = 0#32 ∧
    (modredLast es).inputs = es ∧ (0x2#32).getLsbD 1 = true :=
  ⟨modredLast_inv es, reflectBusy_inv es, rfl, rfl, (by decide : (modredLast []).regs.wCnt = 0#32), rfl, by decide⟩

theorem witness_ResetSetsEveryRegister : (modredBusy [.assertReset]).inputs = .assertReset :: [] ∧
    (0x200#32).getLsbD 9 = true ∧ (modredBusy [.host (fullWrite .ctrl 0x200#32)]).inReset = false := by decide

/-- In reset: each clause's event. -/
theorem witness_NothingRunsInReset :
    (held [.engine]).inReset = true ∧ (held [.engine]).inputs = .engine :: [] ∧
    step (held [.host (.read 0#8)]) = .refused .transactionDuringReset ∧
    step (held [.edge (Pins.access (.read 0#8))]) = .refused .transactionDuringReset ∧
    (regsOf (step (held [.edge { Pins.access (.read 0#8) with psel := false, rstN := false }]))) = some Regs.reset ∧
    (regsOf (step (held [.edge { Pins.access (.read 0#8) with psel := false }]))) = some Regs.reset ∧
    step (held [.releaseReset]) = .next State.reset := ⟨rfl, rfl, rfl, rfl, by decide, by decide, rfl⟩

theorem witness_PollEndsAtCompletion : (modredBusy [.poll]).Inv ∧ (modredBusy [.poll]).inReset = false ∧
    (modredBusy [.poll]).regs.busy = true ∧ (modredBusy [.poll]).inputs = .poll :: [] :=
  ⟨modredBusy_inv _, rfl, rfl, rfl⟩

theorem witness_EveryStepKeepsInvariant : ∃ t, (modredBusy [.engine]).Inv ∧ step (modredBusy [.engine]) = .next t :=
  ⟨_, modredBusy_inv _, rfl⟩

/-- A run that ends in a state with BUSY = 1, W_CNT ≠ 0, and one that ends with ERR = 0. -/
theorem witness_ReachableStatesAreConsistent : ∃ t,
    run 2 { State.reset with inputs := [.host (fullWrite (.operand .n) 7#32), cmd 0x31#32] } = .next t ∧
    t.regs.busy = true ∧ t.regs.wCnt ≠ 0#32 ∧ t.regs.err = false := ⟨_, rfl, by decide⟩

theorem witness_NoStepFaults : (held [.host (.read 0#8)]).Inv ∧
    step (held [.host (.read 0#8)]) = .refused .transactionDuringReset := ⟨held_inv _, rfl⟩

theorem witness_AssemblerTakesLegalCommands : (HostOp.cmdModred 64).transaction? = some (fullWrite .cmd 0x401#32) ∧
    (HostOp.cmdModred 65).transaction? = none ∧ (HostOp.cmdReflect 33 .quo).transaction? = some (fullWrite .cmd 0x2212#32) ∧
    (HostOp.cmdReflect 0 .quo).transaction? = none := by decide

/-- Two blocks at 0x1000 and 0x1100, windows that touch. -/
def two : Platform := Platform.reset [0x1000, 0x1100]

/-- The last address of the first window and the first of the second (20_memory.md R50, 60_exceptions.md R155). -/
theorem test_platform_route : two.route 0x10FF = some (0, 0xFF#8) ∧ two.route 0x1100 = some (1, 0x00#8) ∧
    two.route 0x0FFF = none ∧ two.route 0x1200 = none := by decide

/-- A write of N of the second block leaves the first as it was. -/
theorem witness_BlocksAreIndependent : ∃ p', two.step (.access (.write 0x1118 7#32 0b1111#4)) = .next p' ∧
    two.route 0x1118 = some (1, 0x18#8) ∧ (p'.map fun b => b.state.regs.n) = [0#32, 7#32] := ⟨_, rfl, by decide, by decide⟩

theorem witness_BlocksAreIndependent_block : ∃ p', two.step (.block 0) = .next p' ∧ 1 ≠ 0 := ⟨_, rfl, by decide⟩

theorem witness_AddressesReachTheirBlock : two.windowsApart ∧ two[1]? = some { base := 0x1100, state := State.reset } ∧
    (∃ t, step { State.reset with inputs := [.host (.read 0x18#8)] } = .next t) ∧
    (∃ t, step { State.reset with inputs := [.host (.write 0x18#8 7#32 0b1111#4)] } = .next t) ∧
    ∀ b ∈ two, (HostAccess.read 0x1200).address < b.base ∨ b.base + 256 ≤ (HostAccess.read 0x1200).address :=
  ⟨by decide, by decide, ⟨_, rfl⟩, ⟨_, rfl⟩, by decide⟩

theorem witness_BlocksStartTogether : [0x1000, 0x1100][1]? = some 0x1100 := by decide

end Sys2Proof.Machine.Test
end

section
/-! PROOFS. A command in flight under every step: the host's move leaves it as it was or stops it without a result, and the
engine's step takes it one iteration further or completes it. -/

namespace Sys2Proof.Machine

/-! ### The host's move on a command in flight -/

/-- r' has the command in flight of r at the same point, and the same result registers; DONE can only have been cleared. -/
structure KeepsFlight (r r' : Regs) : Prop where
  busy : r'.busy = r.busy
  done : r.done = false → r'.done = false
  qtrunc : r'.qtrunc = r.qtrunc
  rem : r'.rem = r.rem
  quo : r'.quo = r.quo
  refl : r'.refl = r.refl
  wOp : r'.wOp = r.wOp
  wPoly : r'.wPoly = r.wPoly
  wDeg : r'.wDeg = r.wDeg
  wRem : r'.wRem = r.wRem
  wQuo : r'.wQuo = r.wQuo
  wCnt : r'.wCnt = r.wCnt
  wTrunc : r'.wTrunc = r.wTrunc
  wVal : r'.wVal = r.wVal
  wWid : r'.wWid = r.wWid

/-- r' is r with its command in flight aborted: an error recorded, no result written (40_host_access.md R96). -/
structure Aborted (r r' : Regs) : Prop where
  busy : r'.busy = false
  wOp : r'.wOp = .none
  done : r'.done = r.done
  err : r'.err = true
  qtrunc : r'.qtrunc = r.qtrunc
  rem : r'.rem = r.rem
  quo : r'.quo = r.quo
  refl : r'.refl = r.refl

theorem keepsFlight_self (r : Regs) : KeepsFlight r r := by constructor <;> simp

theorem record_keepsFlight (c : ErrorCode) (r : Regs) : KeepsFlight r (record c r) := by constructor <;> simp

theorem statusWrite_keepsFlight (v : Word) (r : Regs) : KeepsFlight r (statusWrite v r) := by
  constructor <;> simp +contextual [statusWrite]

theorem operandWrite_keepsFlight (o : OperandWord) (v : Word) (r : Regs) : KeepsFlight r (operandWrite o v r) := by
  cases o <;> constructor <;> simp [operandWrite]

/-- SRST comes first and alone (40_host_access.md R97). -/
theorem ctrlWrite_srst {v : Word} (r : Regs) (h9 : v.getLsbD 9 = true) : ctrlWrite v r = Regs.reset :=
  if_pos h9

theorem ctrlWrite_abort {v : Word} (r : Regs) (h9 : v.getLsbD 9 = false) (h8 : v.getLsbD 8 = true) :
    ctrlWrite v r = abort { r with doneIe := v.getLsbD 0, errIe := v.getLsbD 1 } := by
  rw [ctrlWrite, h9, h8]; rfl

theorem ctrlWrite_enables {v : Word} (r : Regs) (h9 : v.getLsbD 9 = false) (h8 : v.getLsbD 8 = false) :
    ctrlWrite v r = { r with doneIe := v.getLsbD 0, errIe := v.getLsbD 1 } := by
  rw [ctrlWrite, h9, h8]; rfl

/-- ABORT ends a command in flight, whatever enables the same write sets. -/
theorem ctrlWrite_aborted {v : Word} {r : Regs} (hb : r.busy = true) (h9 : v.getLsbD 9 = false)
    (h8 : v.getLsbD 8 = true) : Aborted r (ctrlWrite v r) := by
  rw [ctrlWrite_abort r h9 h8]
  constructor <;> simp [abort, hb]

/-- A CTRL write on a command in flight: SRST resets, ABORT aborts, and any other leaves the command as it was
(40_host_access.md R93, R96, R97). -/
theorem ctrlWrite_inFlight (v : Word) {r : Regs} (hb : r.busy = true) :
    KeepsFlight r (ctrlWrite v r) ∨
      ((v.getLsbD 8 || v.getLsbD 9) = true ∧ (ctrlWrite v r = Regs.reset ∨ Aborted r (ctrlWrite v r))) := by
  cases h9 : v.getLsbD 9 with
  | true => exact .inr ⟨by simp, .inl (ctrlWrite_srst r h9)⟩
  | false =>
    cases h8 : v.getLsbD 8 with
    | true => exact .inr ⟨rfl, .inr (ctrlWrite_aborted hb h9 h8)⟩
    | false =>
      rw [ctrlWrite_enables r h9 h8]
      exact .inl { keepsFlight_self r with }

/-- No access touches a command in flight but a CTRL write, which may stop it. -/
theorem accessRegs_inFlight (a : Access) {r : Regs} (hb : r.busy = true) :
    KeepsFlight r (accessRegs a r) ∨
      (a.stops = true ∧ (accessRegs a r = Regs.reset ∨ Aborted r (accessRegs a r))) := by
  cases a with
  | read g => exact .inl (keepsFlight_self r)
  | writeCtrl v => exact ctrlWrite_inFlight v hb
  | writeStatus v => exact .inl (statusWrite_keepsFlight v r)
  | writeCmd c =>
    have hc : accessRegs (.writeCmd c) r = record .busy r := commandRegs_busy c hb
    exact .inl (hc ▸ record_keepsFlight .busy r)
  | writeOperand o v => exact .inl (operandWrite_keepsFlight o v r)

theorem HostMove.inFlight {r r' : Regs} {b : Bool} (m : HostMove r b r') (hb : r.busy = true) :
    KeepsFlight r r' ∨ (b = true ∧ (r' = Regs.reset ∨ Aborted r r')) := by
  cases m with
  | quiet => exact .inl (keepsFlight_self r)
  | access a => exact accessRegs_inFlight a hb
  | reset => exact .inr ⟨rfl, .inl rfl⟩

/-- ALL THAT A STEP CAN DO TO A COMMAND IN FLIGHT: it is left as it was and then moved by at most one engine step, or it is
stopped by an event that stops commands (10_state.md R29). -/
theorem step_inFlight {s t : State} (hb : s.regs.busy = true) (h : step s = .next t) :
    (∃ r, KeepsFlight s.regs r ∧ (t.regs = r ∨ engineRegs r = some t.regs)) ∨
      ((∃ e rest, s.inputs = e :: rest ∧ e.stops = true) ∧ (t.regs = Regs.reset ∨ Aborted s.regs t.regs)) := by
  obtain ⟨⟨b, r, move, hstop, hengine⟩, -⟩ := step_cases h
  rcases move.inFlight hb with hkeep | ⟨hbt, hend⟩
  · exact .inl ⟨r, hkeep, hengine.imp_right fun ⟨_, _, he⟩ => he⟩
  · have hidle : r.busy = false := by
      rcases hend with hreset | habort
      · rw [hreset]; rfl
      · exact habort.busy
    rcases hengine with ht | ⟨-, hbusy, -⟩
    · exact .inr ⟨hstop hbt, ht ▸ hend⟩
    · rw [hidle] at hbusy; cases hbusy

/-! ### What leads to a result goes on leading to it, kept by the host or stepped by the engine -/

theorem KeepsFlight.modred {r r' : Regs} {res : DivResult} (k : KeepsFlight r r') (m : ModredInFlight res r) :
    ModredInFlight res r' where
  busy := k.busy.trans m.busy
  op := k.wOp.trans m.op
  degree := by rw [k.wDeg]; exact m.degree
  leads := by rw [k.wDeg, k.wPoly, k.wCnt, k.wRem, k.wQuo]; exact m.leads
  trunc := k.wTrunc.trans m.trunc

theorem KeepsFlight.reflect {r r' : Regs} {v : DWord} (k : KeepsFlight r r') (m : ReflectInFlight v r) :
    ReflectInFlight v r' where
  busy := k.busy.trans m.busy
  op := k.wOp.trans m.op
  cnt := k.wCnt.trans m.cnt
  width := by rw [k.wWid]; exact m.width
  leads := by rw [k.wVal, k.wWid]; exact m.leads

/-- One iteration takes one off the iterations that remain, so they lead to the same result (42_modreduce.md R122). -/
theorem ModredInFlight.iterate {r : Regs} {res : DivResult} (m : ModredInFlight res r) (hc : r.wCnt ≠ 0#32) :
    ModredInFlight res { modredIterate r with wCnt := r.wCnt - 1#32 } where
  busy := m.busy
  op := m.op
  degree := m.degree
  leads := by
    have hcnt : r.wCnt.toNat = (r.wCnt - 1#32).toNat + 1 := by bv_omega
    have h := m.leads
    rw [hcnt, divIter] at h
    exact h
  trunc := m.trunc

/-- With no iteration left the running values are the result. -/
theorem ModredInFlight.at_zero {r : Regs} {res : DivResult} (m : ModredInFlight res r) (hc : r.wCnt = 0#32) :
    r.wRem = res.rem ∧ r.wQuo = res.quo := by
  have h := m.leads
  rw [hc, show (0#32).toNat = 0 from rfl, divIter, Division.mk.injEq] at h
  exact h

/-- The engine's step on a MODRED that leads to `res`: one iteration, or completion with `res` (42_modreduce.md R122, R123). -/
theorem ModredInFlight.engine {r r' : Regs} {res : DivResult} (m : ModredInFlight res r) (he : engineRegs r = some r') :
    (ModredInFlight res r' ∧ r'.done = r.done ∧ r'.rem = r.rem ∧ r'.quo = r.quo ∧ r'.qtrunc = r.qtrunc) ∨
      (r'.busy = false ∧ r'.wOp = .none ∧ r'.done = true ∧
        r'.rem = res.rem ∧ r'.quo = res.quo ∧ r'.qtrunc = res.trunc) := by
  by_cases hc : r.wCnt = 0#32
  · obtain ⟨hrem, hquo⟩ := m.at_zero hc
    cases (engineRegs_modred_done m.op hc).symm.trans he
    exact .inr ⟨rfl, rfl, rfl, hrem, hquo, m.trunc⟩
  · cases (engineRegs_iterate m.op hc m.degree.1 m.degree.2).symm.trans he
    exact .inl ⟨m.iterate hc, rfl, rfl, rfl, rfl⟩

/-- The engine's step on a REFLECT that will write `v` completes it with `v` (41_reflect.md R112). -/
theorem ReflectInFlight.engine {r r' : Regs} {v : DWord} (m : ReflectInFlight v r) (he : engineRegs r = some r') :
    r'.busy = false ∧ r'.wOp = .none ∧ r'.done = true ∧ r'.refl = v ∧
      r'.rem = r.rem ∧ r'.quo = r.quo ∧ r'.qtrunc = r.qtrunc := by
  cases (engineRegs_reflect_done m.op m.cnt m.width.1 m.width.2).symm.trans he
  exact ⟨rfl, rfl, rfl, m.leads, rfl, rfl, rfl⟩

/-! ### The obligations -/

/-- Settles O30: the host's move keeps the command's point or stops it, and an engine step from a kept point leads on to the
same result. -/
theorem modredResultSurvivesInterleaving : Obligations.ModredResultSurvivesInterleaving := by
  intro s t res m hdone h
  rcases step_inFlight m.busy h with ⟨r, k, ht | he⟩ | ⟨hstop, hend⟩
  · rw [ht]
    exact .inl ⟨k.modred m, k.done hdone, k.rem, k.quo, k.qtrunc⟩
  · rcases (k.modred m).engine he with ⟨m', hd, hrem, hquo, hq⟩ | hdoneNow
    · exact .inl ⟨m', hd.trans (k.done hdone), hrem.trans k.rem, hquo.trans k.quo, hq.trans k.qtrunc⟩
    · exact .inr (.inl hdoneNow)
  · refine .inr (.inr ⟨hstop, hend.imp_right fun a => ?_⟩)
    exact ⟨a.busy, a.wOp, a.done.trans hdone, a.err, a.rem, a.quo, a.qtrunc⟩

/-- Settles O32: as for MODRED, with the engine's only step on a REFLECT its completion. -/
theorem reflectResultSurvivesInterleaving : Obligations.ReflectResultSurvivesInterleaving := by
  intro s t v m hdone h
  rcases step_inFlight m.busy h with ⟨r, k, ht | he⟩ | ⟨hstop, hend⟩
  · rw [ht]
    exact .inl ⟨k.reflect m, k.done hdone, k.refl⟩
  · obtain ⟨hbusy, hop, hd, hrefl, hrem, hquo, hq⟩ := (k.reflect m).engine he
    exact .inr (.inl ⟨hbusy, hop, hd, hrefl, hrem.trans k.rem, hquo.trans k.quo, hq.trans k.qtrunc⟩)
  · refine .inr (.inr ⟨hstop, hend.imp_right fun a => ?_⟩)
    exact ⟨a.busy, a.wOp, a.done.trans hdone, a.err, a.refl⟩

/-- Settles O27: taking the scheduled engine's turn off the schedule leaves the empty one, which is the state's own. -/
theorem unscheduledStepIsTheEngines : Obligations.UnscheduledStepIsTheEngines := by
  intro s hi
  have hback : State.setInputs { s with inputs := [.engine] } [] = s := by rw [← hi]; rfl
  calc step s = engineStep s := by rw [step, advance, hi]
    _ = engineStep (State.setInputs { s with inputs := [.engine] } []) := by rw [hback]
    _ = step { s with inputs := [.engine] } := rfl

end Sys2Proof.Machine
end

section
/-! PROOFS. The state's own rules (10_state.md): the invariant through every step and run, what a step refuses, which writes
change an operand, what a written operand reads, and `irq`. -/

namespace Sys2Proof.Machine

/-! ### The registers after the host's part of a step -/

/-- The transaction that the next scheduled event performs, if any. -/
def State.nextTransaction? (s : State) : Option Transaction := s.inputs.head?.bind Event.transaction?

/-- The registers after the host's part of a clock cycle. -/
def hostPartRegs : Option Transaction → Regs → Regs
  | none, r => r
  | some t, r => hostRegs t r

/-- The registers r' come from r by the engine's turn: no step, or one on a command in flight (40_host_access.md R101). -/
def EngineTurn (r r' : Regs) : Prop := r' = r ∨ (r.busy = true ∧ engineRegs r = some r')

theorem hostPart_eq (t? : Option Transaction) {s : State} (hr : s.inReset = false) :
    ∃ u, hostPart t? s = .next u ∧ u.inReset = false ∧ u.regs = hostPartRegs t? s.regs := by
  cases t? with
  | none => exact ⟨s, rfl, hr, rfl⟩
  | some tr => exact ⟨_, hostStep_eq tr hr, hr, rfl⟩

theorem engineStep_turn {s t : State} (h : engineStep s = .next t) : EngineTurn s.regs t.regs := by
  rcases engineStep_eq_next h with rfl | ⟨-, hbusy, r, he, rfl⟩
  · exact .inl rfl
  · exact .inr ⟨hbusy, he⟩

/-- A clock cycle outside reset is the host's part and then the engine's turn (40_host_access.md R104). -/
theorem cycle_turn {t? : Option Transaction} {s t : State} (hr : s.inReset = false) (h : cycle t? s = .next t) :
    EngineTurn (hostPartRegs t? s.regs) t.regs := by
  obtain ⟨u, hu, -, huregs⟩ := hostPart_eq t? hr
  rw [cycle, hu, andThen_next] at h
  rw [← huregs]
  split at h
  · exact engineStep_turn h
  · cases h; exact .inl rfl

/-- The POLL loop's turn is a clock cycle with a STATUS read, outside reset. -/
theorem pollTurn_eq_next {s t : State} (h : pollTurn s = .next t) :
    s.inReset = false ∧ ∃ u, cycle (some (.read RegName.status.offset)) s = .next u ∧ t.regs = u.regs := by
  obtain ⟨u, hu, h⟩ := andThen_eq_next h
  refine ⟨?_, u, hu, by split at h <;> cases h <;> rfl⟩
  cases hr : s.inReset with
  | false => rfl
  | true => rw [cycle, hostPart, hostStep_inReset _ hr] at hu; cases hu

/-- A clock edge that answers: it takes effect on reset alone, without a transaction, or it is a clock cycle. -/
theorem clockEdge_eq_next {p : Pins} {s t : State} (h : clockEdge p s = .next t) :
    t = holdReset s ∨ (p.transaction? = none ∧ t = leaveReset s) ∨
      (s.inReset = false ∧ cycle p.transaction? s = .next t) := by
  unfold clockEdge at h
  split at h
  · split at h
    · cases h
    · rename_i hsel
      split at h
      · cases h; exact .inr (.inl ⟨by simp [Pins.transaction?, hsel], rfl⟩)
      · cases h; exact .inl rfl
  · rename_i hrun
    simp only [Bool.or_eq_true, not_or, Bool.not_eq_true] at hrun
    exact .inr (.inr ⟨hrun.2, h⟩)

/-- ALL THAT AN EVENT CAN DO TO THE REGISTERS: reset, or the effect of its transaction and then the engine's turn. -/
theorem runEvent_regs {e : Event} {s t : State} (h : runEvent e s = .next t) :
    t.regs = Regs.reset ∨ EngineTurn (hostPartRegs e.transaction? s.regs) t.regs := by
  cases e with
  | host tr =>
    cases hr : s.inReset with
    | true => cases (hostStep_inReset tr hr).symm.trans h
    | false => cases (hostStep_eq tr hr).symm.trans h; exact .inr (.inl rfl)
  | engine => exact .inr (engineStep_turn h)
  | edge p =>
    rcases clockEdge_eq_next h with rfl | ⟨htr, rfl⟩ | ⟨hr, hc⟩
    · exact .inl rfl
    · exact .inr (.inl (by rw [Event.transaction?, htr]; rfl))
    · exact .inr (cycle_turn hr hc)
  | poll =>
    obtain ⟨hr, u, hu, htu⟩ := pollTurn_eq_next h
    rw [htu]
    exact .inr (cycle_turn hr hu)
  | assertReset => cases h; exact .inl rfl
  | releaseReset => cases h; exact .inr (.inl rfl)

theorem step_regs {s t : State} (h : step s = .next t) :
    t.regs = Regs.reset ∨ EngineTurn (hostPartRegs s.nextTransaction? s.regs) t.regs := by
  unfold step advance at h
  unfold State.nextTransaction?
  split at h
  · rename_i hin
    rw [hin]
    exact .inr (engineStep_turn h)
  · rename_i e rest hin
    rw [hin]
    exact runEvent_regs (s := s.setInputs rest) h

/-! ### The invariant (10_state.md R43) -/

theorem EngineTurn.inv {r r' : Regs} (e : EngineTurn r r') (h : r.Inv) : r'.Inv := by
  rcases e with rfl | ⟨-, he⟩
  · exact h
  · exact engineRegs_inv he h

theorem hostPartRegs_inv (t? : Option Transaction) {r : Regs} (h : r.Inv) : (hostPartRegs t? r).Inv := by
  cases t? with
  | none => exact h
  | some tr =>
    obtain ⟨b, m, -⟩ := hostRegs_move tr r
    exact m.inv h

theorem step_regs_inv {s t : State} (h : s.regs.Inv) (hst : step s = .next t) : t.regs.Inv := by
  rcases step_regs hst with hreset | hturn
  · rw [hreset]; exact Regs.reset_inv
  · exact hturn.inv (hostPartRegs_inv _ h)

theorem step_inv {s t : State} (h : s.Inv) (hst : step s = .next t) : t.Inv where
  regs := step_regs_inv h.regs hst
  reset := fun hr => by
    obtain ⟨-, hheld⟩ := step_cases hst
    rcases hheld hr with ht | ⟨hs, ht⟩
    · exact ht
    · exact ht.trans (h.reset hs)

theorem run_inv {k : Nat} {s t : State} (h : s.Inv) (hrun : run k s = .next t) : t.Inv := by
  induction k generalizing s with
  | zero => cases hrun; exact h
  | succ k ih =>
    obtain ⟨u, hu, hrest⟩ := andThen_eq_next hrun
    exact ih (step_inv h hu) hrest

/-- The reset state meets the invariant under every schedule. -/
theorem reset_withInputs_inv (es : List Event) : ({ State.reset with inputs := es } : State).Inv where
  regs := Regs.reset_inv
  reset := fun _ => rfl

/-! ### Which steps answer -/

theorem engineStep_answers {s : State} (h : s.regs.Inv) : ∃ t, engineStep s = .next t := by
  cases hr : s.inReset with
  | true => exact ⟨s, by simp [engineStep, hr]⟩
  | false =>
    cases hb : s.regs.busy with
    | false => exact ⟨s, engineStep_idle hb⟩
    | true =>
      obtain ⟨r, he⟩ := engineRegs_total h hb
      exact ⟨_, engineStep_busy hr hb he⟩

theorem cycle_answers (t? : Option Transaction) {s : State} (h : s.regs.Inv) (hr : s.inReset = false) :
    ∃ t, cycle t? s = .next t := by
  obtain ⟨u, hu, -, huregs⟩ := hostPart_eq t? hr
  rw [cycle, hu, andThen_next]
  split
  · exact engineStep_answers (huregs ▸ hostPartRegs_inv t? h)
  · exact ⟨u, rfl⟩

/-- A clock edge answers, or it is refused as a transaction during reset (70_reset_and_hazards.md R162). -/
theorem clockEdge_answers (p : Pins) {s : State} (h : s.regs.Inv) :
    (∃ t, clockEdge p s = .next t) ∨
      (clockEdge p s = .refused .transactionDuringReset ∧ (s.inReset = true ∨ p.rstN = false)) := by
  unfold clockEdge
  split
  · rename_i hheld
    split
    · exact .inr ⟨rfl, by simpa [or_comm] using hheld⟩
    · split
      · exact .inl ⟨_, rfl⟩
      · exact .inl ⟨_, rfl⟩
  · rename_i hrun
    simp only [Bool.or_eq_true, not_or, Bool.not_eq_true] at hrun
    exact .inl (cycle_answers _ h hrun.2)

/-- The POLL loop's turn answers outside reset, where it is refused. -/
theorem pollTurn_answers {s : State} (h : s.regs.Inv) :
    (∃ t, pollTurn s = .next t) ∨ (pollTurn s = .refused .transactionDuringReset ∧ s.inReset = true) := by
  cases hr : s.inReset with
  | true => rw [pollTurn, cycle, hostPart, hostStep_inReset _ hr]; exact .inr ⟨rfl, rfl⟩
  | false =>
    obtain ⟨u, hu⟩ := cycle_answers (some (.read RegName.status.offset)) h hr
    rw [pollTurn, hu]
    exact .inl ⟨_, rfl⟩

theorem runEvent_answers (e : Event) {s : State} (h : s.regs.Inv) :
    (∃ t, runEvent e s = .next t) ∨
      (runEvent e s = .refused .transactionDuringReset ∧
        (s.inReset = true ∨ ∃ p, e = .edge p ∧ p.rstN = false)) := by
  cases e with
  | host tr =>
    cases hr : s.inReset with
    | true => exact .inr ⟨hostStep_inReset tr hr, .inl rfl⟩
    | false => exact .inl ⟨_, hostStep_eq tr hr⟩
  | engine => exact .inl (engineStep_answers h)
  | edge p =>
    refine (clockEdge_answers p h).imp_right fun ⟨href, hwhy⟩ => ⟨href, ?_⟩
    exact hwhy.imp_right fun hp => ⟨p, rfl, hp⟩
  | poll => exact (pollTurn_answers h).imp_right fun ⟨href, hr⟩ => ⟨href, .inl hr⟩
  | assertReset => exact .inl ⟨_, rfl⟩
  | releaseReset => exact .inl ⟨_, rfl⟩

/-- A step from the invariant answers a next state, or refuses a transaction during reset. -/
theorem step_answers {s : State} (h : s.regs.Inv) :
    (∃ t, step s = .next t) ∨
      (step s = .refused .transactionDuringReset ∧
        (s.inReset = true ∨ ∃ p rest, s.inputs = .edge p :: rest ∧ p.rstN = false)) := by
  unfold step advance
  split
  · exact .inl (engineStep_answers h)
  · rename_i e rest hin
    refine (runEvent_answers e (s := s.setInputs rest) h).imp_right fun ⟨href, hwhy⟩ => ⟨href, ?_⟩
    exact hwhy.imp_right fun ⟨p, he, hp⟩ => ⟨p, rest, he ▸ hin, hp⟩

/-! ### The host's own fields: the operands and the interrupt enables (10_state.md R48) -/

/-- r' has the operands and interrupt enables of r. -/
structure KeepsOperands (r r' : Regs) : Prop where
  poly : r'.poly = r.poly
  n : r'.n = r.n
  val : r'.val = r.val
  doneIe : r'.doneIe = r.doneIe
  errIe : r'.errIe = r.errIe

/-- An operand or interrupt enable of r' differs from that of r only if its own offset is `wrote`. -/
structure OperandChange (wrote : Offset → Prop) (r r' : Regs) : Prop where
  poly : r'.poly ≠ r.poly → wrote 0x10#8 ∨ wrote 0x14#8
  n : r'.n ≠ r.n → wrote 0x18#8
  val : r'.val ≠ r.val → wrote 0x20#8 ∨ wrote 0x24#8
  doneIe : r'.doneIe ≠ r.doneIe → wrote 0x04#8
  errIe : r'.errIe ≠ r.errIe → wrote 0x04#8

theorem keepsOperands_self (r : Regs) : KeepsOperands r r := ⟨rfl, rfl, rfl, rfl, rfl⟩

theorem KeepsOperands.change {r r' : Regs} (k : KeepsOperands r r') (wrote : Offset → Prop) :
    OperandChange wrote r r' where
  poly := fun hne => absurd k.poly hne
  n := fun hne => absurd k.n hne
  val := fun hne => absurd k.val hne
  doneIe := fun hne => absurd k.doneIe hne
  errIe := fun hne => absurd k.errIe hne

theorem OperandChange.trans_keeps {wrote : Offset → Prop} {r r' r'' : Regs} (c : OperandChange wrote r r')
    (k : KeepsOperands r' r'') : OperandChange wrote r r'' where
  poly := k.poly ▸ c.poly
  n := k.n ▸ c.n
  val := k.val ▸ c.val
  doneIe := k.doneIe ▸ c.doneIe
  errIe := k.errIe ▸ c.errIe

theorem record_keepsOperands (c : ErrorCode) (r : Regs) : KeepsOperands r (record c r) := ⟨rfl, rfl, rfl, rfl, rfl⟩

theorem statusWrite_keepsOperands (v : Word) (r : Regs) : KeepsOperands r (statusWrite v r) := ⟨rfl, rfl, rfl, rfl, rfl⟩

theorem modredAccept_keepsOperands (d : Size) (r : Regs) : KeepsOperands r (modredAccept d (acceptCommon r)) := by
  unfold modredAccept
  dsimp only
  split <;> exact ⟨rfl, rfl, rfl, rfl, rfl⟩

theorem reflectAccept_keepsOperands (w : Size) (v : DWord) (r : Regs) :
    KeepsOperands r (reflectAccept w v (acceptCommon r)) := ⟨rfl, rfl, rfl, rfl, rfl⟩

/-- A command, accepted or rejected, reads its operands and writes none. -/
theorem issue_keepsOperands (i : Instr) (r : Regs) : KeepsOperands r (issue i r) := by
  cases i with
  | modred d =>
    rw [issue, modredIssue]
    split
    · exact record_keepsOperands _ r
    · split
      · exact record_keepsOperands _ r
      · exact modredAccept_keepsOperands d r
  | reflect w src =>
    rw [issue, reflectIssue]
    split
    · exact record_keepsOperands _ r
    · split
      · exact record_keepsOperands _ r
      · split
        · exact record_keepsOperands _ r
        · exact reflectAccept_keepsOperands w _ r

theorem commandRegs_keepsOperands (c : Word) (r : Regs) : KeepsOperands r (commandRegs c r) := by
  unfold commandRegs
  split
  · exact issue_keepsOperands _ r
  · exact record_keepsOperands _ r

theorem engineTurn_keepsOperands {r r' : Regs} (e : EngineTurn r r') : KeepsOperands r r' := by
  rcases e with rfl | ⟨-, he⟩
  · exact keepsOperands_self _
  · rcases engineRegs_cases he with ⟨-, -, -, -, rfl⟩ | ⟨-, -, rfl⟩ | ⟨-, -, -, -, rfl⟩ <;>
      exact ⟨rfl, rfl, rfl, rfl, rfl⟩

theorem abort_keepsOperands (r : Regs) : KeepsOperands r (abort r) := by
  unfold abort
  split <;> exact ⟨rfl, rfl, rfl, rfl, rfl⟩

/-- A CTRL write resets everything, or it changes the interrupt enables and no operand (40_host_access.md R93). -/
theorem ctrlWrite_operandChange {wrote : Offset → Prop} (v : Word) (r : Regs) (hw : wrote 0x04#8) :
    ctrlWrite v r = Regs.reset ∨ OperandChange wrote r (ctrlWrite v r) := by
  have henables : OperandChange wrote r { r with doneIe := v.getLsbD 0, errIe := v.getLsbD 1 } :=
    { (keepsOperands_self r).change wrote with
      doneIe := fun _ => hw
      errIe := fun _ => hw }
  cases h9 : v.getLsbD 9 with
  | true => exact .inl (ctrlWrite_srst r h9)
  | false =>
    cases h8 : v.getLsbD 8 with
    | true => rw [ctrlWrite_abort r h9 h8]; exact .inr (henables.trans_keeps (abort_keepsOperands _))
    | false => rw [ctrlWrite_enables r h9 h8]; exact .inr henables

/-- An operand write changes the operand at its own offset (40_host_access.md R92). -/
theorem operandWrite_operandChange {wrote : Offset → Prop} (o : OperandWord) (v : Word) (r : Regs)
    (hw : wrote (RegName.operand o).offset) : OperandChange wrote r (operandWrite o v r) := by
  have hkeep := (keepsOperands_self r).change wrote
  cases o with
  | polyLo => exact { hkeep with poly := fun _ => .inl hw }
  | polyHi => exact { hkeep with poly := fun _ => .inr hw }
  | n => exact { hkeep with n := fun _ => hw }
  | valLo => exact { hkeep with val := fun _ => .inl hw }
  | valHi => exact { hkeep with val := fun _ => .inr hw }

/-- A full-word write that the bus lets through, by the register it names. -/
theorem writeAccess_operandChange {wrote : Offset → Prop} {g : RegName} {v : Word} {a : Access} (r : Regs)
    (h : writeAccess g v = .ok a) (hw : wrote g.offset) :
    accessRegs a r = Regs.reset ∨ OperandChange wrote r (accessRegs a r) := by
  cases g with
  | id => cases h
  | ctrl => cases h; exact ctrlWrite_operandChange v r hw
  | status => cases h; exact .inr ((statusWrite_keepsOperands v r).change wrote)
  | cmd => cases h; exact .inr ((commandRegs_keepsOperands v r).change wrote)
  | operand o => cases h; exact .inr (operandWrite_operandChange o v r hw)
  | result w => cases h

/-- The host's part of a step resets everything, or it changes an operand by a full-word write to its offset. -/
theorem hostPartRegs_operandChange {wrote : Offset → Prop} (t? : Option Transaction) (r : Regs)
    (hw : ∀ off v, t? = some (.write off v 0b1111#4) → wrote off) :
    hostPartRegs t? r = Regs.reset ∨ OperandChange wrote r (hostPartRegs t? r) := by
  have hkeep := (keepsOperands_self r).change wrote
  cases t? with
  | none => exact .inr hkeep
  | some tr =>
    rw [hostPartRegs, hostRegs]
    cases hroute : route tr with
    | error e => exact .inr hkeep
    | ok a =>
      rcases route_eq_ok hroute with ⟨g, -, rfl⟩ | ⟨g, v, rfl, ha⟩
      · exact .inr hkeep
      · exact writeAccess_operandChange r ha (hw _ v rfl)

theorem EngineTurn.of_reset {r : Regs} (e : EngineTurn Regs.reset r) : r = Regs.reset := by
  rcases e with h | ⟨hbusy, -⟩
  · exact h
  · cases hbusy

/-- The event that s takes next performs a full-word write to this offset. -/
def State.TakesWrite (s : State) (off : Offset) : Prop :=
  ∃ e rest v, s.inputs = e :: rest ∧ e.transaction? = some (.write off v 0b1111#4)

theorem takesWrite_of_nextTransaction {s : State} {off : Offset} {v : Word}
    (h : s.nextTransaction? = some (.write off v 0b1111#4)) : s.TakesWrite off := by
  unfold State.nextTransaction? at h
  cases hin : s.inputs with
  | nil => rw [hin] at h; cases h
  | cons e rest => rw [hin] at h; exact ⟨e, rest, v, hin, h⟩

theorem step_operandChange {s t : State} (h : step s = .next t) :
    t.regs = Regs.reset ∨ OperandChange s.TakesWrite s.regs t.regs := by
  rcases step_regs h with hreset | hturn
  · exact .inl hreset
  · rcases hostPartRegs_operandChange (wrote := s.TakesWrite) s.nextTransaction? s.regs
      (fun _ _ => takesWrite_of_nextTransaction) with hreset | hchange
    · rw [hreset] at hturn
      exact .inl hturn.of_reset
    · exact .inr (hchange.trans_keeps (engineTurn_keepsOperands hturn))

/-! ### Read after write -/

theorem readReg_operandWrite_same (o : OperandWord) (v : Word) (r : Regs) :
    readReg (.operand o) (operandWrite o v r) = v := by
  cases o with
  | polyLo => exact loHalf_setLo _ _
  | polyHi => exact hiHalf_setHi _ _
  | n => rfl
  | valLo => exact loHalf_setLo _ _
  | valHi => exact hiHalf_setHi _ _

/-- The write of one half of an operand leaves the other half; the rest is other registers. -/
theorem readReg_operand_operandWrite_ne {o o' : OperandWord} (hne : o' ≠ o) (v : Word) (r : Regs) :
    readReg (.operand o') (operandWrite o v r) = readReg (.operand o') r := by
  cases o with
  | polyLo => cases o' with
    | polyLo => exact absurd rfl hne
    | polyHi => exact hiHalf_setLo _ _
    | _ => rfl
  | polyHi => cases o' with
    | polyLo => exact loHalf_setHi _ _
    | polyHi => exact absurd rfl hne
    | _ => rfl
  | n => cases o' with
    | n => exact absurd rfl hne
    | _ => rfl
  | valLo => cases o' with
    | valLo => exact absurd rfl hne
    | valHi => exact hiHalf_setLo _ _
    | _ => rfl
  | valHi => cases o' with
    | valLo => exact loHalf_setHi _ _
    | valHi => exact absurd rfl hne
    | _ => rfl

theorem readReg_operandWrite_ne {g : RegName} {o : OperandWord} (hne : g ≠ .operand o) (v : Word) (r : Regs) :
    readReg g (operandWrite o v r) = readReg g r := by
  cases g with
  | operand o' => exact readReg_operand_operandWrite_ne (fun h => hne (by rw [h])) v r
  | result w => cases o <;> cases w <;> rfl
  | _ => cases o <;> rfl

theorem readReg_operandWrite (g : RegName) (o : OperandWord) (v : Word) (r : Regs) :
    readReg g (operandWrite o v r) = if g = .operand o then v else readReg g r := by
  split
  · rename_i h; rw [h]; exact readReg_operandWrite_same o v r
  · rename_i h; exact readReg_operandWrite_ne h v r

theorem hostRegs_writeOperand (o : OperandWord) (v : Word) (r : Regs) :
    hostRegs (.write (RegName.operand o).offset v 0b1111#4) r = operandWrite o v r := by
  rw [hostRegs, route_write]; rfl

theorem hostAnswer_writeOperand (o : OperandWord) (v : Word) (r : Regs) :
    hostAnswer (.write (RegName.operand o).offset v 0b1111#4) r = .write false := by
  rw [hostAnswer, route_write]; rfl

theorem hostAnswer_read (g : RegName) (r : Regs) :
    hostAnswer (.read g.offset) r = .read false (readReg g r) := by
  rw [hostAnswer, route_read]; rfl

/-- Two transactions one after the other: each sees the registers that the one before it left (20_memory.md R53). -/
theorem run_two_host {s : State} {rest : List Event} {t₁ t₂ : Transaction} (hr : s.inReset = false)
    (hi : s.inputs = .host t₁ :: .host t₂ :: rest) :
    ∃ t, run 2 s = .next t ∧ t.inputs = rest ∧ t.regs = hostRegs t₂ (hostRegs t₁ s.regs) ∧
      t.responses = hostAnswer t₂ (hostRegs t₁ s.regs) :: hostAnswer t₁ s.regs :: s.responses := by
  have h₁ := step_host hr hi
  have h₂ := step_host (s := s.answered (.host t₂ :: rest) (hostRegs t₁ s.regs) (hostAnswer t₁ s.regs))
    (rest := rest) (t := t₂) hr rfl
  rw [run, h₁, andThen_next, run, h₂]
  exact ⟨_, rfl, rfl, rfl, rfl⟩

/-! ### The flags in the words a host reads (10_state.md R23, R28) -/

theorem getElem_flagWord (b : Bool) {i : Nat} (h : i < 32) : (flagWord b)[i] = (decide (i = 0) && b) := by
  cases b <;> simp [flagWord]

theorem statusWord_done (r : Regs) : (statusWord r).getLsbD 1 = r.done := by
  simp [statusWord, getElem_flagWord]

theorem statusWord_err (r : Regs) : (statusWord r).getLsbD 2 = r.err := by
  simp [statusWord, getElem_flagWord]

theorem ctrlWord_doneIe (r : Regs) : (ctrlWord r).getLsbD 0 = r.doneIe := by
  simp [ctrlWord, getElem_flagWord]

theorem ctrlWord_errIe (r : Regs) : (ctrlWord r).getLsbD 1 = r.errIe := by
  simp [ctrlWord, getElem_flagWord]

/-! ### The obligations -/

/-- Settles O48: the host's part and the engine's turn each keep the registers' invariant. -/
theorem everyStepKeepsInvariant : Obligations.EveryStepKeepsInvariant :=
  fun _ _ h hst => step_inv h hst

/-- Settles O34: the engine's turn keeps every operand, and the host's part changes one only by a write to its offset. -/
theorem operandsChangeOnlyByHostWrites : Obligations.OperandsChangeOnlyByHostWrites := by
  intro s t h hne wrote
  obtain ⟨hpoly, hn, hval, hdone, herr⟩ := (step_operandChange h).resolve_left hne
  exact ⟨hpoly, hn, hval, hdone, herr⟩

/-- Settles O38: the read sees the registers that the operand write left. -/
theorem operandReadsBackAsWritten : Obligations.OperandReadsBackAsWritten := by
  intro s rest o g v hr hi
  obtain ⟨t, hrun, hinputs, -, hresponses⟩ := run_two_host hr hi
  refine ⟨t, hrun, hinputs, ?_⟩
  rw [hresponses, hostRegs_writeOperand, hostAnswer_read, hostAnswer_writeOperand, readReg_operandWrite]

/-- Settles O49, from the invariant through every run from reset. -/
theorem reachableStatesAreConsistent : Obligations.ReachableStatesAreConsistent := by
  intro k es t hrun
  have h := (run_inv (reset_withInputs_inv es) hrun).regs
  exact ⟨h.busy_iff, h.ecode_none, h.busy_not_done, h.cnt_modred⟩

/-- Settles O50: a step from the invariant answers, or it is that refusal. -/
theorem noStepFaults : Obligations.NoStepFaults := by
  intro s h
  rcases step_answers h.regs with ⟨t, ht⟩ | ⟨href, hwhy⟩
  · rw [ht]
    exact ⟨fun e he => (by cases he), fun e he => by cases he⟩
  · rw [href]
    exact ⟨fun e he => (by cases he), fun e he => by cases he; exact ⟨rfl, hwhy⟩⟩

/-- Settles O41: bits 1 and 2 of STATUS and bits 0 and 1 of CTRL are the four flags. -/
theorem irqFollowsStatusAndCtrl : Obligations.IrqFollowsStatusAndCtrl := by
  intro r
  rw [statusWord_done, statusWord_err, ctrlWord_doneIe, ctrlWord_errIe]
  exact ⟨rfl, rfl⟩

end Sys2Proof.Machine
end

section
/-! PROOFS. The byte view of the window (20_memory.md R54, R55): a register word's lanes, then a 64-bit register's bytes. -/

namespace Sys2Proof.Machine

/-! ### Byte lanes of a register word (20_memory.md R54) -/

/-- The byte at a register word's offset + k lies in that word, and the low two bits of the byte's offset are its lane k. -/
theorem RegName.offset_add_lane (g : RegName) (k : Fin 4) :
    (g.offset + BitVec.ofNat 8 k.val) &&& 0xFC#8 = g.offset ∧
      ((g.offset + BitVec.ofNat 8 k.val).extractLsb' 0 2).toNat = k.val := by
  revert k
  cases g with
  | operand o => cases o <;> decide
  | result w => cases w <;> decide
  | _ => decide

theorem windowByte_lane (g : RegName) (k : Fin 4) (r : Regs) :
    windowByte (g.offset + BitVec.ofNat 8 k.val) r = some ((readReg g r).extractLsb' (8 * k.val) 8) := by
  obtain ⟨hword, hlane⟩ := g.offset_add_lane k
  simp only [windowByte, hword, hlane, RegName.ofOffset_offset]

/-! ### Bytes of a 64-bit register (20_memory.md R55) -/

theorem extractLsb'_loHalf (v : DWord) {start len : Nat} (h : start + len ≤ 32) :
    (loHalf v).extractLsb' start len = v.extractLsb' start len := by
  apply BitVec.eq_of_getLsbD_eq
  intro i hi
  simp only [BitVec.getLsbD_extractLsb', getLsbD_loHalf, show start + i < 32 by omega, decide_true, Bool.true_and]

theorem extractLsb'_hiHalf (v : DWord) {start len : Nat} (h : start + len ≤ 32) :
    (hiHalf v).extractLsb' start len = v.extractLsb' (32 + start) len := by
  apply BitVec.eq_of_getLsbD_eq
  intro i hi
  simp only [BitVec.getLsbD_extractLsb', getLsbD_hiHalf, show start + i < 32 by omega, decide_true, Bool.true_and,
    Nat.add_assoc]

/-- Two register words that hold the halves of `v`, the high half at the next word, show `v` with its low byte first:
bytes 0 to 3 are lanes of the low word, bytes 4 to 7 of the high word. -/
theorem windowByte_dword {lo hi : RegName} {v : DWord} {r : Regs} (hoff : hi.offset = lo.offset + 4#8)
    (hlo : readReg lo r = loHalf v) (hhi : readReg hi r = hiHalf v) (k : Fin 8) :
    windowByte (lo.offset + BitVec.ofNat 8 k.val) r = some (v.extractLsb' (8 * k.val) 8) := by
  by_cases hk : k.val < 4
  · have hlane := windowByte_lane lo ⟨k.val, hk⟩ r
    rwa [hlo, extractLsb'_loHalf v (by omega)] at hlane
  · obtain ⟨j, hj⟩ : ∃ j : Fin 4, k.val = 4 + j.val := ⟨⟨k.val - 4, by omega⟩, by simp only; omega⟩
    have hlane := windowByte_lane hi j r
    rwa [hoff, hhi, extractLsb'_hiHalf v (by omega), BitVec.add_assoc, ← BitVec.ofNat_add,
      show 32 + 8 * j.val = 8 * (4 + j.val) by omega, ← hj] at hlane

/-! ### The obligation -/

/-- Settles O42: the lanes of each word, and the five pairs of words that hold a 64-bit register's halves. -/
theorem windowIsLittleEndian : Obligations.WindowIsLittleEndian :=
  ⟨fun r g k => windowByte_lane g k r, fun _ k =>
    ⟨windowByte_dword (lo := .operand .polyLo) (hi := .operand .polyHi) rfl rfl rfl k,
      windowByte_dword (lo := .operand .valLo) (hi := .operand .valHi) rfl rfl rfl k,
      windowByte_dword (lo := .result .remLo) (hi := .result .remHi) rfl rfl rfl k,
      windowByte_dword (lo := .result .quoLo) (hi := .result .quoHi) rfl rfl rfl k,
      windowByte_dword (lo := .result .reflLo) (hi := .result .reflHi) rfl rfl rfl k⟩⟩

end Sys2Proof.Machine
end

section
/-! PROOFS. The command word (30_encoding.md): decode and encode as inverses, the legal words by their fields and by number,
and the assembler's words. -/

namespace Sys2Proof

/-! ### Decode and encode are inverse (30_encoding.md R70 to R77) -/

theorem decode_encode (i : Instr) : decode (encode i) = .ok i := by
  cases i with
  | modred d => simp [decode_eq_modred]
  | reflect w s => simp [decode_eq_reflect]

/-- A decoded word has the fields of its command's encoding, so it is that encoding. -/
theorem encode_of_decode {c : Word} {i : Instr} (h : decode c = .ok i) : encode i = c := by
  cases i with
  | modred d =>
    obtain ⟨hhigh, hbit, hsrc, hopc, hsize⟩ := (decode_eq_modred c d).1 h
    apply word_ext <;> simp [hhigh, hbit, hsrc, hopc, hsize]
  | reflect w s =>
    obtain ⟨hhigh, hbit, hsrc, hopc, hsize⟩ := (decode_eq_reflect c w s).1 h
    apply word_ext <;> simp [hhigh, hbit, ← hsrc, hopc, hsize]

theorem decode_eq_ok_iff {c : Word} {i : Instr} : decode c = .ok i ↔ c = encode i :=
  ⟨fun h => (encode_of_decode h).symm, fun h => h ▸ decode_encode i⟩

/-! ### Legal sizes and sources (30_encoding.md R73, R74) -/

theorem sizeLegal_iff (z : Size) : sizeLegal z = true ↔ 1 ≤ z.toNat ∧ z.toNat ≤ 64 := by
  simp [sizeLegal]

theorem wellFormed_modred (d : Size) : (Instr.modred d).wellFormed = true ↔ 1 ≤ d.toNat ∧ d.toNat ≤ 64 :=
  sizeLegal_iff d

theorem wellFormed_reflect (w : Size) (s : Src) :
    (Instr.reflect w s).wellFormed = true ↔ (1 ≤ w.toNat ∧ w.toNat ≤ 64) ∧ s ≠ .reserved := by
  simp [Instr.wellFormed, sizeLegal_iff]

theorem size_toNat_ofNat {n : Nat} (h : n ≤ 64) : (BitVec.ofNat 7 n).toNat = n := by
  rw [BitVec.toNat_ofNat]; omega

/-- The legal sizes are the numbers 1 to 64. -/
theorem exists_legalSize {P : Size → Prop} :
    (∃ z : Size, (1 ≤ z.toNat ∧ z.toNat ≤ 64) ∧ P z) ↔ ∃ n : Nat, 1 ≤ n ∧ n ≤ 64 ∧ P (BitVec.ofNat 7 n) := by
  constructor
  · rintro ⟨z, ⟨h1, h64⟩, hP⟩
    exact ⟨z.toNat, h1, h64, by simpa using hP⟩
  · rintro ⟨n, h1, h64, hP⟩
    exact ⟨BitVec.ofNat 7 n, by rw [size_toNat_ofNat h64]; exact ⟨h1, h64⟩, hP⟩

theorem Src.ofBits_ne_reserved (b : BitVec 2) : Src.ofBits b ≠ .reserved ↔ b.toNat ≤ 2 := by
  revert b; decide

/-- The sources that REFLECT takes are the numbers 0 to 2. -/
theorem exists_namedSrc {P : Src → Prop} :
    (∃ s : Src, s ≠ .reserved ∧ P s) ↔ ∃ n : Nat, n ≤ 2 ∧ P (Src.ofBits (BitVec.ofNat 2 n)) := by
  constructor
  · rintro ⟨s, hs, hP⟩
    exact ⟨s.toBits.toNat, (Src.ofBits_ne_reserved _).1 (by simpa using hs), by simpa using hP⟩
  · rintro ⟨n, hn, hP⟩
    exact ⟨_, (Src.ofBits_ne_reserved _).2 (by rw [BitVec.toNat_ofNat]; omega), hP⟩

/-! ### A word under a mask: each field under the mask's field -/

theorem fieldOpc_and (c m : Word) : fieldOpc (c &&& m) = fieldOpc c &&& fieldOpc m := BitVec.extractLsb'_and
theorem fieldSize_and (c m : Word) : fieldSize (c &&& m) = fieldSize c &&& fieldSize m := BitVec.extractLsb'_and
theorem fieldBit11_and (c m : Word) : fieldBit11 (c &&& m) = fieldBit11 c &&& fieldBit11 m := BitVec.extractLsb'_and
theorem fieldSrc_and (c m : Word) : fieldSrc (c &&& m) = fieldSrc c &&& fieldSrc m := BitVec.extractLsb'_and
theorem fieldHigh_and (c m : Word) : fieldHigh (c &&& m) = fieldHigh c &&& fieldHigh m := BitVec.extractLsb'_and

theorem and_eq_iff_fields (c m v : Word) : c &&& m = v ↔
    fieldOpc c &&& fieldOpc m = fieldOpc v ∧ fieldSize c &&& fieldSize m = fieldSize v ∧
      fieldBit11 c &&& fieldBit11 m = fieldBit11 v ∧ fieldSrc c &&& fieldSrc m = fieldSrc v ∧
      fieldHigh c &&& fieldHigh m = fieldHigh v := by
  rw [← fieldOpc_and, ← fieldSize_and, ← fieldBit11_and, ← fieldSrc_and, ← fieldHigh_and]
  exact ⟨fun h => by simp [h], fun ⟨ho, hz, h11, hs, hh⟩ => word_ext ho hz h11 hs hh⟩

/-- The MODRED mask covers every field but SIZE (30_encoding.md R76). -/
theorem and_modredMask_eq (c : Word) : c &&& 0xFFFFF80F#32 = 0x00000001#32 ↔
    fieldHigh c = 0#18 ∧ fieldBit11 c = 0#1 ∧ fieldSrc c = 0#2 ∧ fieldOpc c = 1#4 := by
  have hmask : fieldOpc 0xFFFFF80F#32 = BitVec.allOnes 4 ∧ fieldSize 0xFFFFF80F#32 = 0#7 ∧
      fieldBit11 0xFFFFF80F#32 = BitVec.allOnes 1 ∧ fieldSrc 0xFFFFF80F#32 = BitVec.allOnes 2 ∧
      fieldHigh 0xFFFFF80F#32 = BitVec.allOnes 18 := by decide
  have hword : fieldOpc 0x00000001#32 = 1#4 ∧ fieldSize 0x00000001#32 = 0#7 ∧ fieldBit11 0x00000001#32 = 0#1 ∧
      fieldSrc 0x00000001#32 = 0#2 ∧ fieldHigh 0x00000001#32 = 0#18 := by decide
  simp only [and_eq_iff_fields, hmask, hword, BitVec.and_allOnes, BitVec.and_zero, true_and]
  tauto

/-- The REFLECT mask covers every field but SIZE and SRC (30_encoding.md R77). -/
theorem and_reflectMask_eq (c : Word) : c &&& 0xFFFFC80F#32 = 0x00000002#32 ↔
    fieldHigh c = 0#18 ∧ fieldBit11 c = 0#1 ∧ fieldOpc c = 2#4 := by
  have hmask : fieldOpc 0xFFFFC80F#32 = BitVec.allOnes 4 ∧ fieldSize 0xFFFFC80F#32 = 0#7 ∧
      fieldBit11 0xFFFFC80F#32 = BitVec.allOnes 1 ∧ fieldSrc 0xFFFFC80F#32 = 0#2 ∧
      fieldHigh 0xFFFFC80F#32 = BitVec.allOnes 18 := by decide
  have hword : fieldOpc 0x00000002#32 = 2#4 ∧ fieldSize 0x00000002#32 = 0#7 ∧ fieldBit11 0x00000002#32 = 0#1 ∧
      fieldSrc 0x00000002#32 = 0#2 ∧ fieldHigh 0x00000002#32 = 0#18 := by decide
  simp only [and_eq_iff_fields, hmask, hword, BitVec.and_allOnes, BitVec.and_zero, true_and]
  tauto

/-! ### The encoding of a command by its operands' numbers -/

theorem encode_modred_ofNat {d : Nat} (h : d ≤ 64) :
    encode (.modred (BitVec.ofNat 7 d)) = (BitVec.ofNat 32 d <<< 4) ||| 0x1#32 := by
  rw [encode, BitVec.setWidth_ofNat_of_le_of_lt (by decide) (by omega)]

theorem encode_reflect_ofNat {w n : Nat} (hw : w ≤ 64) (hn : n ≤ 2) :
    encode (.reflect (BitVec.ofNat 7 w) (Src.ofBits (BitVec.ofNat 2 n))) =
      (BitVec.ofNat 32 n <<< 12) ||| (BitVec.ofNat 32 w <<< 4) ||| 0x2#32 := by
  rw [encode, Src.toBits_ofBits, BitVec.setWidth_ofNat_of_le_of_lt (by decide) (by omega),
    BitVec.setWidth_ofNat_of_le_of_lt (by decide) (by omega)]

/-- The fields do not overlap, so the encoding is also their sum. -/
theorem encode_modred_eq_sum (d : Size) : encode (.modred d) = BitVec.ofNat 32 (d.toNat * 16 + 1) := by
  revert d; decide

theorem encode_reflect_eq_sum (w : Size) (s : Src) :
    encode (.reflect w s) = BitVec.ofNat 32 (s.toBits.toNat * 4096 + w.toNat * 16 + 2) := by
  cases s <;> revert w <;> decide

/-! ### The legal words (30_encoding.md R76, R77) -/

/-- The word decodes to a well-formed MODRED. -/
def IsLegalModred (c : Word) : Prop := ∃ d, decode c = .ok (.modred d) ∧ (Instr.modred d).wellFormed = true

/-- The word decodes to a well-formed REFLECT. -/
def IsLegalReflect (c : Word) : Prop := ∃ w s, decode c = .ok (.reflect w s) ∧ (Instr.reflect w s).wellFormed = true

theorem isLegalModred_iff_encoding (c : Word) :
    IsLegalModred c ↔ ∃ d : Nat, 1 ≤ d ∧ d ≤ 64 ∧ c = (BitVec.ofNat 32 d <<< 4) ||| 0x1#32 := by
  calc IsLegalModred c
      ↔ ∃ d : Size, (1 ≤ d.toNat ∧ d.toNat ≤ 64) ∧ c = encode (.modred d) := by
        simp only [IsLegalModred, decode_eq_ok_iff, wellFormed_modred, and_comm]
    _ ↔ ∃ d : Nat, 1 ≤ d ∧ d ≤ 64 ∧ c = encode (.modred (BitVec.ofNat 7 d)) := exists_legalSize
    _ ↔ _ := exists_congr fun d => and_congr_right fun _ => and_congr_right fun h => by rw [encode_modred_ofNat h]

theorem isLegalModred_iff_mask (c : Word) :
    IsLegalModred c ↔
      c &&& 0xFFFFF80F#32 = 0x00000001#32 ∧ 1 ≤ (c.toNat / 16) % 128 ∧ (c.toNat / 16) % 128 ≤ 64 := by
  rw [and_modredMask_eq, ← fieldSize_toNat]
  constructor
  · rintro ⟨d, hdec, hwf⟩
    obtain ⟨hhigh, hbit, hsrc, hopc, rfl⟩ := (decode_eq_modred c d).1 hdec
    exact ⟨⟨hhigh, hbit, hsrc, hopc⟩, (wellFormed_modred _).1 hwf⟩
  · rintro ⟨⟨hhigh, hbit, hsrc, hopc⟩, hsize⟩
    exact ⟨_, (decode_eq_modred c _).2 ⟨hhigh, hbit, hsrc, hopc, rfl⟩, (wellFormed_modred _).2 hsize⟩

theorem isLegalReflect_iff_encoding (c : Word) :
    IsLegalReflect c ↔ ∃ w s : Nat, 1 ≤ w ∧ w ≤ 64 ∧ s ≤ 2 ∧
      c = (BitVec.ofNat 32 s <<< 12) ||| (BitVec.ofNat 32 w <<< 4) ||| 0x2#32 := by
  calc IsLegalReflect c
      ↔ ∃ w : Size, (1 ≤ w.toNat ∧ w.toNat ≤ 64) ∧ ∃ s : Src, s ≠ .reserved ∧ c = encode (.reflect w s) := by
        simp only [IsLegalReflect, decode_eq_ok_iff, wellFormed_reflect, and_comm (a := c = _), and_assoc,
          exists_and_left]
    _ ↔ ∃ w s : Nat, 1 ≤ w ∧ w ≤ 64 ∧ s ≤ 2 ∧
          c = encode (.reflect (BitVec.ofNat 7 w) (Src.ofBits (BitVec.ofNat 2 s))) := by
        simp only [exists_legalSize, exists_namedSrc, exists_and_left]
    _ ↔ _ := exists₂_congr fun w s => and_congr_right fun _ => and_congr_right fun hw => and_congr_right fun hs => by
        rw [encode_reflect_ofNat hw hs]

theorem isLegalReflect_iff_mask (c : Word) :
    IsLegalReflect c ↔ c &&& 0xFFFFC80F#32 = 0x00000002#32 ∧ 1 ≤ (c.toNat / 16) % 128 ∧
      (c.toNat / 16) % 128 ≤ 64 ∧ (c.toNat / 4096) % 4 ≤ 2 := by
  rw [and_reflectMask_eq, ← fieldSize_toNat, ← fieldSrc_toNat, ← Src.ofBits_ne_reserved]
  constructor
  · rintro ⟨w, s, hdec, hwf⟩
    obtain ⟨hhigh, hbit, rfl, hopc, rfl⟩ := (decode_eq_reflect c w s).1 hdec
    obtain ⟨⟨h1, h64⟩, hs⟩ := (wellFormed_reflect _ _).1 hwf
    exact ⟨⟨hhigh, hbit, hopc⟩, h1, h64, hs⟩
  · rintro ⟨⟨hhigh, hbit, hopc⟩, h1, h64, hs⟩
    exact ⟨_, _, (decode_eq_reflect c _ _).2 ⟨hhigh, hbit, rfl, hopc, rfl⟩, (wellFormed_reflect _ _).2 ⟨⟨h1, h64⟩, hs⟩⟩

/-! ### The obligations -/

/-- Settles O4: the encoding has the command's fields, and a word is its fields. -/
theorem decodeEncodeAgree : Obligations.DecodeEncodeAgree :=
  ⟨decode_encode, fun _ _ => encode_of_decode⟩

/-- Settles O1: the legal words by their encodings and by the mask; the examples evaluate. -/
theorem legalModredWords : Obligations.LegalModredWords :=
  ⟨isLegalModred_iff_encoding, isLegalModred_iff_mask, by decide⟩

/-- Settles O2: the legal words by their encodings and by the mask; the examples evaluate. -/
theorem legalReflectWords : Obligations.LegalReflectWords :=
  ⟨isLegalReflect_iff_encoding, isLegalReflect_iff_mask, by decide⟩

/-- Settles O51: the assembler's word is the encoding of a legal command, whose fields do not overlap. -/
theorem assemblerTakesLegalCommands : Obligations.AssemblerTakesLegalCommands := by
  refine ⟨fun d => ?_, fun w src => ?_, fun c => rfl⟩
  · rw [Machine.HostOp.transaction?, Machine.assembleCommand]
    split
    · rename_i h
      rw [Option.map_some, encode_modred_eq_sum, size_toNat_ofNat h.2]; rfl
    · rfl
  · rw [Machine.HostOp.transaction?, Machine.assembleCommand]
    split
    · rename_i h
      rw [Option.map_some, encode_reflect_eq_sum, size_toNat_ofNat h.2.1]; rfl
    · rfl

end Sys2Proof
end

section
/-! PROOFS. What a CMD write of an illegal word does (30_encoding.md R79), and where a POLL loop ends (R83). -/

namespace Sys2Proof.Machine

/-! ### Illegal words (30_encoding.md R78, R79) -/

/-- r' is r with an error recorded and nothing else done (60_exceptions.md R143). -/
def OnlyRecords (r r' : Regs) : Prop := ∃ code : ErrorCode, code ≠ .none ∧ r' = record code r

theorem onlyRecords_record {code : ErrorCode} (h : code ≠ .none) (r : Regs) : OnlyRecords r (record code r) :=
  ⟨code, h, rfl⟩

theorem badSize_of_not_sizeLegal {z : Size} (h : sizeLegal z = false) : z = 0#7 ∨ z.toNat > 64 := by
  revert h z; decide

theorem modredIssue_badSize {d : Size} (h : sizeLegal d = false) (r : Regs) : OnlyRecords r (modredIssue d r) := by
  rw [modredIssue, if_pos (badSize_of_not_sizeLegal h)]
  split <;> exact onlyRecords_record (by decide) r

theorem reflectIssue_badSize {w : Size} (h : sizeLegal w = false) (src : Src) (r : Regs) :
    OnlyRecords r (reflectIssue w src r) := by
  rw [reflectIssue, if_pos (badSize_of_not_sizeLegal h)]
  split <;> exact onlyRecords_record (by decide) r

theorem reflectIssue_reserved (w : Size) (r : Regs) : OnlyRecords r (reflectIssue w .reserved r) := by
  rw [reflectIssue, srcOperand]
  split
  · exact onlyRecords_record (by decide) r
  · split <;> exact onlyRecords_record (by decide) r

/-- A command with an illegal field is rejected, busy or not. -/
theorem issue_illFormed {i : Instr} (h : i.wellFormed = false) (r : Regs) : OnlyRecords r (issue i r) := by
  cases i with
  | modred d => exact modredIssue_badSize h r
  | reflect w s =>
    rw [Instr.wellFormed, Bool.and_eq_false_iff] at h
    rcases h with hsize | hsrc
    · exact reflectIssue_badSize hsize s r
    · obtain rfl : s = .reserved := by simpa using hsrc
      exact reflectIssue_reserved w r

theorem errorOf_ne_none (e : DecodeError) : errorOf e ≠ .none := by cases e <;> decide

/-- A word that encodes no well-formed command decodes to none at all or to an ill-formed one, and either is rejected. -/
theorem commandRegs_illegal {c : Word} (h : ∀ i : Instr, i.wellFormed = true → encode i ≠ c) (r : Regs) :
    OnlyRecords r (commandRegs c r) := by
  unfold commandRegs
  split
  · rename_i i hdec
    exact issue_illFormed (Bool.eq_false_iff.2 fun hwf => h i hwf (encode_of_decode hdec)) r
  · rename_i e _
    apply onlyRecords_record
    split
    · decide
    · exact errorOf_ne_none e

theorem hostAnswer_writeCmd (c : Word) (r : Regs) :
    hostAnswer (.write RegName.cmd.offset c 0b1111#4) r = .write false := by
  rw [hostAnswer, route_write]; rfl

/-- A host's CMD write, outside reset. -/
theorem step_cmdWrite {s : State} {rest : List Event} {c : Word} (hr : s.inReset = false)
    (hi : s.inputs = .host (.write RegName.cmd.offset c 0b1111#4) :: rest) :
    step s = .next (s.answered rest (commandRegs c s.regs) (.write false)) := by
  rw [step_host hr hi, hostRegs_writeCmd, hostAnswer_writeCmd]

/-- The degree-0 word decodes, so it encodes `MODRED 0` and no other command. -/
theorem degreeZeroWord_illegal (i : Instr) (h : i.wellFormed = true) : encode i ≠ 0x00000001#32 := by
  intro he
  have hdec : decode 0x00000001#32 = .ok i := he ▸ decode_encode i
  cases hdec.symm.trans (show decode 0x00000001#32 = .ok (.modred 0#7) by decide)
  exact absurd h (by decide)

/-! ### A STATUS read in a clock cycle, and the POLL loop's turn (30_encoding.md R83, 40_host_access.md R104) -/

theorem hostRegs_read (off : Offset) (r : Regs) : hostRegs (.read off) r = r := by
  unfold hostRegs
  split
  · rfl
  · rename_i a hroute
    rcases route_eq_ok hroute with ⟨g, -, rfl⟩ | ⟨g, v, hw, -⟩
    · rfl
    · cases hw

theorem hostPart_read (g : RegName) {s : State} (hr : s.inReset = false) :
    hostPart (some (.read g.offset)) s = .next (s.respond (.read false (readReg g s.regs))) := by
  rw [hostPart, hostStep_eq _ hr, hostRegs_read, hostAnswer_read, setRegs_self]

/-- The read of a cycle sees the registers from before the engine's step (40_host_access.md R104). -/
theorem cycle_read_busy (g : RegName) {s : State} {r : Regs} (hr : s.inReset = false) (hb : s.regs.busy = true)
    (he : engineRegs s.regs = some r) :
    cycle (some (.read g.offset)) s = .next ((s.respond (.read false (readReg g s.regs))).setRegs r) := by
  rw [cycle, hostPart_read g hr, andThen_next, if_pos hb]
  exact engineStep_busy hr hb he

theorem cycle_read_idle (g : RegName) {s : State} (hr : s.inReset = false) (hb : s.regs.busy = false) :
    cycle (some (.read g.offset)) s = .next (s.respond (.read false (readReg g s.regs))) := by
  rw [cycle, hostPart_read g hr, andThen_next, hb]; rfl

/-- A POLL turn that reads BUSY = 1 lets the engine step and goes on. -/
theorem step_poll_busy {s : State} {rest : List Event} {r : Regs} (hr : s.inReset = false)
    (hi : s.inputs = .poll :: rest) (hb : s.regs.busy = true) (he : engineRegs s.regs = some r) :
    step s = .next (s.answered (.poll :: rest) r (.read false (statusWord s.regs))) := by
  have hcycle := cycle_read_busy .status (s := s.setInputs rest) hr hb he
  rw [step, advance, hi]
  show pollTurn (s.setInputs rest) = _
  rw [pollTurn, hcycle, andThen_next, setInputs_regs, if_pos hb]
  rfl

/-- A POLL turn that reads BUSY = 0 ends the loop. -/
theorem step_poll_idle {s : State} {rest : List Event} (hr : s.inReset = false) (hi : s.inputs = .poll :: rest)
    (hb : s.regs.busy = false) : step s = .next (s.answered rest s.regs (.read false (statusWord s.regs))) := by
  have hcycle := cycle_read_idle .status (s := s.setInputs rest) hr hb
  rw [step, advance, hi]
  show pollTurn (s.setInputs rest) = _
  rw [pollTurn, hcycle, andThen_next, setInputs_regs, hb]
  rfl

/-! ### The engine's steps under the loop -/

/-- With no iteration left the engine's step completes the command, whichever it is (40_host_access.md R103). -/
theorem engineRegs_last {r : Regs} (h : r.Inv) (hb : r.busy = true) (hc : r.wCnt = 0#32) :
    ∃ r', engineRegs r = some r' ∧ r'.busy = false ∧ r'.done = true ∧ r'.err = r.err ∧ r'.ecode = r.ecode := by
  obtain ⟨r', he⟩ := engineRegs_total h hb
  refine ⟨r', he, ?_⟩
  rcases engineRegs_cases he with ⟨-, hne, -⟩ | ⟨-, -, rfl⟩ | ⟨-, -, -, -, rfl⟩
  · exact absurd hc hne
  · exact ⟨rfl, rfl, rfl, rfl⟩
  · exact ⟨rfl, rfl, rfl, rfl⟩

/-- The registers after an iteration: one iteration less, and all flags as they were (40_host_access.md R102). -/
def iterated (r : Regs) : Regs := { modredIterate r with wCnt := r.wCnt - 1#32 }

theorem engineRegs_iterated {r : Regs} (h : r.Inv) (hc : r.wCnt ≠ 0#32) : engineRegs r = some (iterated r) := by
  have hop := h.cnt_modred hc
  obtain ⟨h1, h64⟩ := h.degree hop
  exact engineRegs_iterate hop hc h1 h64

theorem toNat_eq_pred_add_one {c : Word} (h : c ≠ 0#32) : c.toNat = (c - 1#32).toNat + 1 := by bv_omega

/-! ### The loop -/

/-- A POLL loop that begins in s ends in t after W_CNT + 2 reads, the last of which sees the command completed. -/
structure PollsToCompletion (s : State) (rest : List Event) (t : State) : Prop where
  runs : run (s.regs.wCnt.toNat + 2) s = .next t
  inputs : t.inputs = rest
  busy : t.regs.busy = false
  done : t.regs.done = true
  err : t.regs.err = s.regs.err
  ecode : t.regs.ecode = s.regs.ecode
  responses : t.responses = .read false (statusWord t.regs) ::
    (List.replicate (s.regs.wCnt.toNat + 1) (.read false (statusWord s.regs)) ++ s.responses)

/-- With no iteration left: one read that sees BUSY = 1 while the command completes, and one that sees the result. -/
theorem pollsToCompletion_last {s : State} {rest : List Event} (h : s.regs.Inv) (hr : s.inReset = false)
    (hb : s.regs.busy = true) (hi : s.inputs = .poll :: rest) (hc : s.regs.wCnt = 0#32) :
    ∃ t, PollsToCompletion s rest t := by
  obtain ⟨r, he, hidle, hdone, herr, hecode⟩ := engineRegs_last h hb hc
  have hcnt : s.regs.wCnt.toNat = 0 := by rw [hc]; rfl
  let u := s.answered (.poll :: rest) r (.read false (statusWord s.regs))
  have hfirst : step s = .next u := step_poll_busy hr hi hb he
  have hsecond : step u = .next (u.answered rest r (.read false (statusWord r))) := step_poll_idle hr rfl hidle
  exact ⟨_, {
    runs := by rw [hcnt, run, hfirst, andThen_next, run, hsecond]; rfl
    inputs := rfl
    busy := hidle
    done := hdone
    err := herr
    ecode := hecode
    responses := by rw [hcnt]; rfl }⟩

/-- One iteration under the loop: the loop goes on from the iterated registers, which read the same STATUS word. -/
theorem PollsToCompletion.of_iterated {s t : State} {rest : List Event} (h : s.regs.Inv) (hr : s.inReset = false)
    (hb : s.regs.busy = true) (hi : s.inputs = .poll :: rest) (hc : s.regs.wCnt ≠ 0#32)
    (p : PollsToCompletion (s.answered (.poll :: rest) (iterated s.regs) (.read false (statusWord s.regs))) rest t) :
    PollsToCompletion s rest t where
  runs := by
    rw [toNat_eq_pred_add_one hc, run, step_poll_busy hr hi hb (engineRegs_iterated h hc)]
    exact p.runs
  inputs := p.inputs
  busy := p.busy
  done := p.done
  err := p.err
  ecode := p.ecode
  responses := by
    rw [p.responses, toNat_eq_pred_add_one hc, List.replicate_succ' (n := _ + 1), List.append_assoc]
    rfl

theorem exists_pollsToCompletion {k : Nat} {s : State} {rest : List Event} (h : s.regs.Inv) (hr : s.inReset = false)
    (hb : s.regs.busy = true) (hi : s.inputs = .poll :: rest) (hk : s.regs.wCnt.toNat = k) :
    ∃ t, PollsToCompletion s rest t := by
  induction k generalizing s with
  | zero => exact pollsToCompletion_last h hr hb hi (BitVec.eq_of_toNat_eq hk)
  | succ k ih =>
    have hc : s.regs.wCnt ≠ 0#32 := fun h0 => by simp [h0] at hk
    have hk' : (s.regs.wCnt - 1#32).toNat = k := by have := toNat_eq_pred_add_one hc; omega
    obtain ⟨t, p⟩ := ih (s := s.answered (.poll :: rest) (iterated s.regs) (.read false (statusWord s.regs)))
      (engineRegs_inv (engineRegs_iterated h hc) h) hr hb rfl hk'
    exact ⟨t, p.of_iterated h hr hb hi hc⟩

/-! ### The obligations -/

/-- Settles O7: the word decodes to no command or to an ill-formed one, and a rejection is the record alone. -/
theorem illegalWordsAreRejected : Obligations.IllegalWordsAreRejected := by
  refine ⟨fun s rest c hr hi h => ?_, degreeZeroWord_illegal⟩
  obtain ⟨code, hcode, hregs⟩ := commandRegs_illegal h s.regs
  exact ⟨code, hcode, by rw [step_cmdWrite hr hi, hregs]; rfl⟩

/-- Settles O46, by induction on the iterations that remain. -/
theorem pollEndsAtCompletion : Obligations.PollEndsAtCompletion := by
  intro s rest h hr hb hi
  obtain ⟨t, p⟩ := exists_pollsToCompletion h.regs hr hb hi rfl
  exact ⟨t, p.runs, p.inputs, p.busy, p.done, p.err, p.ecode, p.responses⟩

end Sys2Proof.Machine
end

section
/-! PROOFS. The result registers over every step (40_host_access.md R105): the host's part resets them or leaves them, and the
engine writes them at a completion alone. -/

namespace Sys2Proof.Machine

/-- r' has the results of r: REM, QUO, QTRUNC and REFL. -/
structure KeepsResults (r r' : Regs) : Prop where
  rem : r'.rem = r.rem
  quo : r'.quo = r.quo
  qtrunc : r'.qtrunc = r.qtrunc
  refl : r'.refl = r.refl

theorem keepsResults_self (r : Regs) : KeepsResults r r := ⟨rfl, rfl, rfl, rfl⟩

theorem KeepsFlight.keepsResults {r r' : Regs} (k : KeepsFlight r r') : KeepsResults r r' :=
  ⟨k.rem, k.quo, k.qtrunc, k.refl⟩

theorem Aborted.keepsResults {r r' : Regs} (a : Aborted r r') : KeepsResults r r' := ⟨a.rem, a.quo, a.qtrunc, a.refl⟩

/-! ### What the host does to an idle block -/

/-- ALL THAT A COMMAND'S ISSUE CAN DO: record an error, or accept (30_encoding.md R78). -/
theorem issue_cases (i : Instr) (r : Regs) :
    (∃ code, issue i r = record code r) ∨ (∃ d, issue i r = modredAccept d (acceptCommon r)) ∨
      ∃ w v, issue i r = reflectAccept w v (acceptCommon r) := by
  cases i with
  | modred d =>
    rw [issue, modredIssue]
    split
    · exact .inl ⟨_, rfl⟩
    · split
      · exact .inl ⟨_, rfl⟩
      · exact .inr (.inl ⟨d, rfl⟩)
  | reflect w src =>
    rw [issue, reflectIssue]
    split
    · exact .inl ⟨_, rfl⟩
    · split
      · exact .inl ⟨_, rfl⟩
      · split
        · exact .inl ⟨_, rfl⟩
        · exact .inr (.inr ⟨w, _, rfl⟩)

theorem record_keepsResults (c : ErrorCode) (r : Regs) : KeepsResults r (record c r) :=
  (record_keepsFlight c r).keepsResults

theorem modredAccept_keepsResults (d : Size) (r : Regs) : KeepsResults r (modredAccept d (acceptCommon r)) := by
  unfold modredAccept
  dsimp only
  split <;> exact ⟨rfl, rfl, rfl, rfl⟩

theorem commandRegs_keepsResults (c : Word) (r : Regs) : KeepsResults r (commandRegs c r) := by
  unfold commandRegs
  split
  · rename_i i _
    rcases issue_cases i r with ⟨code, h⟩ | ⟨d, h⟩ | ⟨w, v, h⟩
    · rw [h]; exact record_keepsResults code r
    · rw [h]; exact modredAccept_keepsResults d r
    · rw [h]; exact ⟨rfl, rfl, rfl, rfl⟩
  · exact record_keepsResults _ r

/-- An abort has no effect when idle (40_host_access.md R96). -/
theorem abort_idle {r : Regs} (hb : r.busy = false) : abort r = r := by
  rw [abort, hb]; rfl

/-- A CTRL write on an idle block that is no soft reset writes the enables alone. -/
theorem ctrlWrite_idle {v : Word} {r : Regs} (hb : r.busy = false) (h9 : v.getLsbD 9 = false) :
    ctrlWrite v r = { r with doneIe := v.getLsbD 0, errIe := v.getLsbD 1 } := by
  cases h8 : v.getLsbD 8 with
  | true => rw [ctrlWrite_abort r h9 h8]; exact abort_idle hb
  | false => exact ctrlWrite_enables r h9 h8

theorem ctrlWrite_idle_results (v : Word) {r : Regs} (hb : r.busy = false) :
    ctrlWrite v r = Regs.reset ∨ KeepsResults r (ctrlWrite v r) := by
  cases h9 : v.getLsbD 9 with
  | true => exact .inl (ctrlWrite_srst r h9)
  | false => rw [ctrlWrite_idle hb h9]; exact .inr ⟨rfl, rfl, rfl, rfl⟩

theorem accessRegs_idle_results (a : Access) {r : Regs} (hb : r.busy = false) :
    accessRegs a r = Regs.reset ∨ KeepsResults r (accessRegs a r) := by
  cases a with
  | read g => exact .inr (keepsResults_self r)
  | writeCtrl v => exact ctrlWrite_idle_results v hb
  | writeStatus v => exact .inr (statusWrite_keepsFlight v r).keepsResults
  | writeCmd c => exact .inr (commandRegs_keepsResults c r)
  | writeOperand o v => exact .inr (operandWrite_keepsFlight o v r).keepsResults

/-- A step of an idle block resets it or leaves its results: no engine step ends a command that is not there. -/
theorem step_idle_results {s t : State} (hb : s.regs.busy = false) (h : step s = .next t) :
    t.regs = Regs.reset ∨ KeepsResults s.regs t.regs := by
  obtain ⟨⟨b, r, move, -, ht | ⟨hbusy, -, -⟩⟩, -⟩ := step_cases h
  · rw [ht]
    cases move with
    | quiet => exact .inr (keepsResults_self _)
    | access a => exact accessRegs_idle_results a hb
    | reset => exact .inl rfl
  · rw [hb] at hbusy; cases hbusy

/-! ### What the engine's step writes -/

/-- The step from r to r' completed a MODRED, which writes REM, QUO and QTRUNC alone (42_modreduce.md R123). -/
structure CompletesModred (r r' : Regs) : Prop where
  op : r.wOp = .modred
  cnt : r.wCnt = 0#32
  idle : r'.busy = false
  done : r'.done = true
  rem : r'.rem = r.wRem
  quo : r'.quo = r.wQuo
  qtrunc : r'.qtrunc = r.wTrunc
  refl : r'.refl = r.refl

/-- The step from r to r' completed a REFLECT, which writes REFL alone (41_reflect.md R112). -/
structure CompletesReflect (r r' : Regs) : Prop where
  op : r.wOp = .reflect
  cnt : r.wCnt = 0#32
  idle : r'.busy = false
  done : r'.done = true
  refl : r'.refl = reflect r.wVal r.wWid.toNat
  rem : r'.rem = r.rem
  quo : r'.quo = r.quo
  qtrunc : r'.qtrunc = r.qtrunc

theorem engineRegs_results {r r' : Regs} (he : engineRegs r = some r') :
    KeepsResults r r' ∨ CompletesModred r r' ∨ CompletesReflect r r' := by
  rcases engineRegs_cases he with ⟨-, -, -, -, rfl⟩ | ⟨hop, hcnt, rfl⟩ | ⟨hop, hcnt, -, -, rfl⟩
  · exact .inl ⟨rfl, rfl, rfl, rfl⟩
  · exact .inr (.inl ⟨hop, hcnt, rfl, rfl, rfl, rfl, rfl, rfl⟩)
  · exact .inr (.inr ⟨hop, hcnt, rfl, rfl, rfl, rfl, rfl, rfl⟩)

/-- A completion from registers with the flight of r is one from r. -/
theorem CompletesModred.of_keepsFlight {r₀ r r' : Regs} (c : CompletesModred r r') (k : KeepsFlight r₀ r) :
    CompletesModred r₀ r' where
  op := k.wOp ▸ c.op
  cnt := k.wCnt ▸ c.cnt
  idle := c.idle
  done := c.done
  rem := c.rem.trans k.wRem
  quo := c.quo.trans k.wQuo
  qtrunc := c.qtrunc.trans k.wTrunc
  refl := c.refl.trans k.refl

theorem CompletesReflect.of_keepsFlight {r₀ r r' : Regs} (c : CompletesReflect r r') (k : KeepsFlight r₀ r) :
    CompletesReflect r₀ r' where
  op := k.wOp ▸ c.op
  cnt := k.wCnt ▸ c.cnt
  idle := c.idle
  done := c.done
  refl := by rw [c.refl, k.wVal, k.wWid]
  rem := c.rem.trans k.rem
  quo := c.quo.trans k.quo
  qtrunc := c.qtrunc.trans k.qtrunc

theorem KeepsResults.trans {r r' r'' : Regs} (k : KeepsResults r r') (k' : KeepsResults r' r'') : KeepsResults r r'' :=
  ⟨k'.rem.trans k.rem, k'.quo.trans k.quo, k'.qtrunc.trans k.qtrunc, k'.refl.trans k.refl⟩

/-- ALL THAT A STEP CAN DO TO THE RESULTS OF A BUSY BLOCK: nothing, reset them, or complete the command in flight. -/
theorem step_busy_results {s t : State} (hb : s.regs.busy = true) (h : step s = .next t) :
    KeepsResults s.regs t.regs ∨ t.regs = Regs.reset ∨ CompletesModred s.regs t.regs ∨
      CompletesReflect s.regs t.regs := by
  rcases step_inFlight hb h with ⟨r, k, ht | he⟩ | ⟨-, hreset | habort⟩
  · rw [ht]; exact .inl k.keepsResults
  · rcases engineRegs_results he with hkeep | hmodred | hreflect
    · exact .inl (k.keepsResults.trans hkeep)
    · exact .inr (.inr (.inl (hmodred.of_keepsFlight k)))
    · exact .inr (.inr (.inr (hreflect.of_keepsFlight k)))
  · exact .inr (.inl hreset)
  · exact .inl habort.keepsResults

/-! ### The obligation -/

/-- Settles O33: an idle block's step resets or keeps the results, and a busy block's may also complete its command. -/
theorem resultsChangeOnlyAtCompletionOrReset : Obligations.ResultsChangeOnlyAtCompletionOrReset := by
  intro s t h
  cases hb : s.regs.busy with
  | false =>
    rcases step_idle_results hb h with hreset | k
    · exact .inr (.inl hreset)
    · exact .inl ⟨k.rem, k.quo, k.qtrunc, k.refl⟩
  | true =>
    rcases step_busy_results hb h with k | hreset | c | c
    · exact .inl ⟨k.rem, k.quo, k.qtrunc, k.refl⟩
    · exact .inr (.inl hreset)
    · exact .inr (.inr (.inl ⟨rfl, c.op, c.cnt, c.idle, c.done, c.rem, c.quo, c.qtrunc, c.refl⟩))
    · exact .inr (.inr (.inr ⟨rfl, c.op, c.cnt, c.idle, c.done, c.refl, c.rem, c.quo, c.qtrunc⟩))

end Sys2Proof.Machine
end

section
/-! PROOFS. The register interface: what a host read returns (40_host_access.md R90), and what a full-word write to CTRL, STATUS
and the operands does (R92, R93, R94). -/

namespace Sys2Proof.Machine

/-! ### Reads (40_host_access.md R90) -/

/-- The low half of a 64-bit register as a number (10_state.md R21). -/
theorem loHalf_eq_mod (v : DWord) : loHalf v = BitVec.ofNat 32 (v.toNat % 2 ^ 32) := by
  apply BitVec.eq_of_toNat_eq
  simp [loHalf]

/-- The high half of a 64-bit register as a number. -/
theorem hiHalf_eq_div (v : DWord) : hiHalf v = BitVec.ofNat 32 (v.toNat / 2 ^ 32) := by
  apply BitVec.eq_of_toNat_eq
  simp [hiHalf, Nat.shiftRight_eq_div_pow]

theorem expectedRead_offset (g : RegName) (r : Regs) : expectedRead g.offset r = .read false (readReg g r) := by
  cases g with
  | id => rfl
  | ctrl =>
    show Response.read false _ = .read false (ctrlWord r)
    rw [ctrlWord]
    generalize r.errIe = e, r.doneIe = d
    revert e d; decide
  | status =>
    show Response.read false _ = .read false (statusWord r)
    rw [statusWord]
    generalize r.qtrunc = q, r.err = e, r.done = d, r.busy = b
    cases r.ecode <;> revert q e d b <;> decide
  | cmd => rfl
  | operand o => cases o with
    | n => rfl
    | polyLo => rw [readReg, loHalf_eq_mod]; rfl
    | valLo => rw [readReg, loHalf_eq_mod]; rfl
    | polyHi => rw [readReg, hiHalf_eq_div]; rfl
    | valHi => rw [readReg, hiHalf_eq_div]; rfl
  | result w => cases w with
    | remLo => rw [readReg, loHalf_eq_mod]; rfl
    | quoLo => rw [readReg, loHalf_eq_mod]; rfl
    | reflLo => rw [readReg, loHalf_eq_mod]; rfl
    | remHi => rw [readReg, hiHalf_eq_div]; rfl
    | quoHi => rw [readReg, hiHalf_eq_div]; rfl
    | reflHi => rw [readReg, hiHalf_eq_div]; rfl

theorem expectedRead_badOffset {off : Offset} (h : off.toNat % 4 ≠ 0 ∨ off.toNat = 0x1C ∨ 0x40 ≤ off.toNat) (r : Regs) :
    expectedRead off r = .read true 0#32 := by
  unfold expectedRead
  dsimp only
  split
  case h_16 => rfl
  all_goals omega

/-- At a register's offset a read answers its word, and at every other offset a bus error. -/
theorem hostAnswer_read_eq_expectedRead (off : Offset) (r : Regs) : hostAnswer (.read off) r = expectedRead off r := by
  rcases locate_cases off with ⟨g, -, rfl⟩ | ⟨e, he, hbad⟩
  · rw [hostAnswer_read, expectedRead_offset]
  · rw [expectedRead_badOffset hbad, hostAnswer, route, he]; rfl

theorem step_read {s : State} {rest : List Event} {off : Offset} (hr : s.inReset = false)
    (hi : s.inputs = .host (.read off) :: rest) :
    step s = .next (s.answered rest s.regs (expectedRead off s.regs)) := by
  rw [step_host hr hi, hostRegs_read, hostAnswer_read_eq_expectedRead]

/-! ### Full-word writes (40_host_access.md R91) -/

theorem accessAnswer_writeAccess {g : RegName} {v : Word} {a : Access} (h : writeAccess g v = .ok a) (r : Regs) :
    accessAnswer a r = .write false := by
  cases g with
  | id => cases h
  | result w => cases h
  | _ => cases h; rfl

/-- A full-word write to a writable register: its effect on the registers, and the answer OKAY. -/
theorem step_write {s : State} {rest : List Event} {g : RegName} {v : Word} {a : Access} (h : writeAccess g v = .ok a)
    (hr : s.inReset = false) (hi : s.inputs = .host (.write g.offset v 0b1111#4) :: rest) :
    step s = .next (s.answered rest (accessRegs a s.regs) (.write false)) := by
  rw [step_host hr hi, hostRegs, hostAnswer, route_write, h]
  show Host.Outcome.next (s.answered rest (accessRegs a s.regs) (accessAnswer a s.regs)) = _
  rw [accessAnswer_writeAccess h]

theorem step_ctrlWrite {s : State} {rest : List Event} {v : Word} (hr : s.inReset = false)
    (hi : s.inputs = .host (.write 0x04#8 v 0b1111#4) :: rest) :
    step s = .next (s.answered rest (ctrlWrite v s.regs) (.write false)) :=
  step_write (g := .ctrl) rfl hr hi

theorem step_statusWrite {s : State} {rest : List Event} {v : Word} (hr : s.inReset = false)
    (hi : s.inputs = .host (.write 0x08#8 v 0b1111#4) :: rest) :
    step s = .next (s.answered rest (statusWrite v s.regs) (.write false)) :=
  step_write (g := .status) rfl hr hi

theorem step_operandWrite {s : State} {rest : List Event} {v : Word} (o : OperandWord) (hr : s.inReset = false)
    (hi : s.inputs = .host (.write (RegName.operand o).offset v 0b1111#4) :: rest) :
    step s = .next (s.answered rest (operandWrite o v s.regs) (.write false)) :=
  step_write (g := .operand o) rfl hr hi

/-- ABORT on a command in flight, with the enables of the same write (40_host_access.md R96). -/
theorem ctrlWrite_abort_busy {v : Word} {r : Regs} (hb : r.busy = true) (h9 : v.getLsbD 9 = false)
    (h8 : v.getLsbD 8 = true) : ctrlWrite v r = record .abort { r with
      doneIe := v.getLsbD 0, errIe := v.getLsbD 1, wOp := .none, wCnt := 0#32, busy := false } := by
  rw [ctrlWrite_abort r h9 h8]; exact if_pos hb

/-- W1C of two flags as Boolean terms (40_host_access.md R94). -/
theorem statusWrite_eq (v : Word) (r : Regs) : statusWrite v r = { r with
    done := r.done && !v.getLsbD 1
    err := r.err && !v.getLsbD 2
    ecode := if v.getLsbD 2 then .none else r.ecode } := by
  unfold statusWrite
  cases v.getLsbD 1 <;> cases v.getLsbD 2 <;> simp

theorem joinHalves_and (hi lo hi' lo' : Word) :
    joinHalves hi lo &&& joinHalves hi' lo' = joinHalves (hi &&& hi') (lo &&& lo') :=
  BitVec.and_append

theorem joinHalves_or (hi lo hi' lo' : Word) :
    joinHalves hi lo ||| joinHalves hi' lo' = joinHalves (hi ||| hi') (lo ||| lo') :=
  BitVec.or_append

theorem joinHalves_zero_left (x : Word) : joinHalves 0#32 x = x.setWidth 64 := by
  apply BitVec.eq_of_getLsbD_eq
  intro i hi
  rw [getLsbD_joinHalves, BitVec.getLsbD_setWidth]
  by_cases h : i < 32
  · simp [h, hi]
  · simp [h, x.getLsbD_of_ge i (by omega)]

theorem joinHalves_zero_right (x : Word) : joinHalves x 0#32 = x.setWidth 64 <<< 32 := by
  apply BitVec.eq_of_getLsbD_eq
  intro i hi
  rw [getLsbD_joinHalves, BitVec.getLsbD_shiftLeft, BitVec.getLsbD_setWidth]
  by_cases h : i < 32
  · simp [h]
  · simp [h, hi, show i - 32 < 64 by omega]

/-- The low word is replaced and the high word stays (10_state.md R21). -/
theorem setLo_eq_mask (v : DWord) (x : Word) : setLo v x = (v &&& 0xFFFFFFFF00000000#64) ||| x.setWidth 64 :=
  calc setLo v x
    _ = joinHalves (hiHalf v) (loHalf v) &&& joinHalves (BitVec.allOnes 32) 0#32 ||| joinHalves 0#32 x := by
      rw [joinHalves_and, joinHalves_or, BitVec.and_allOnes, BitVec.and_zero, BitVec.or_zero, BitVec.zero_or, setLo]
    _ = v &&& 0xFFFFFFFF00000000#64 ||| x.setWidth 64 := by rw [joinHalves_halves, joinHalves_zero_left]; rfl

/-- The high word is replaced and the low word stays. -/
theorem setHi_eq_mask (v : DWord) (x : Word) :
    setHi v x = (v &&& 0x00000000FFFFFFFF#64) ||| (x.setWidth 64 <<< 32) :=
  calc setHi v x
    _ = joinHalves (hiHalf v) (loHalf v) &&& joinHalves 0#32 (BitVec.allOnes 32) ||| joinHalves x 0#32 := by
      rw [joinHalves_and, joinHalves_or, BitVec.and_allOnes, BitVec.and_zero, BitVec.or_zero, BitVec.zero_or, setHi]
    _ = v &&& 0x00000000FFFFFFFF#64 ||| (x.setWidth 64 <<< 32) := by
      rw [joinHalves_halves, joinHalves_zero_right]; rfl

/-! ### The obligations -/

/-- Settles O35: a read changes no register, and its answer is the table's at every offset. -/
theorem hostReadAnswersTheTable : Obligations.HostReadAnswersTheTable :=
  ⟨fun _ _ _ hr hi => step_read hr hi, rfl, rfl⟩

/-- Settles O39: SRST comes first, and ABORT does more than the enables only on a busy block. -/
theorem ctrlWriteEffects : Obligations.CtrlWriteEffects := by
  intro s rest v hr hi
  rw [step_ctrlWrite hr hi]
  refine ⟨fun h9 => ?_, fun h9 hnoAbort => ?_, fun h9 h8 hb => ?_⟩
  · rw [ctrlWrite_srst _ h9]
  · rcases hnoAbort with h8 | hb
    · rw [ctrlWrite_enables _ h9 h8]
    · rw [ctrlWrite_idle hb h9]
  · rw [ctrlWrite_abort_busy hb h9 h8]; rfl

/-- Settles O40; the example reads back the STATUS word after ERR and ECODE are cleared. -/
theorem statusWriteClears : Obligations.StatusWriteClears := by
  refine ⟨fun s rest v hr hi => ?_, ?_⟩
  · rw [step_statusWrite hr hi, statusWrite_eq]
  · exact ⟨_, step_statusWrite rfl rfl, _, step_read rfl rfl, by decide⟩

/-- Settles O37: each of the five words by its name, and the halves of POLY and VAL as masked values. -/
theorem operandWriteStoresOneWord : Obligations.OperandWriteStoresOneWord := by
  refine ⟨fun s rest v hr => ⟨fun hi => ?_, fun hi => ?_, fun hi => ?_, fun hi => ?_, fun hi => ?_⟩, ?_⟩
  · rw [step_operandWrite .polyLo hr hi, operandWrite, setLo_eq_mask]
  · rw [step_operandWrite .polyHi hr hi, operandWrite, setHi_eq_mask]
  · exact step_operandWrite .n hr hi
  · rw [step_operandWrite .valLo hr hi, operandWrite, setLo_eq_mask]
  · rw [step_operandWrite .valHi hr hi, operandWrite, setHi_eq_mask]
  · exact ⟨_, step_operandWrite .n rfl rfl, rfl⟩

end Sys2Proof.Machine
end

section
/-! PROOFS. A CMD write (40_host_access.md R95): it runs the decoded command, and does what `check` and `Accept` of the spec
say (30_encoding.md R78, 40_host_access.md R98, R99). -/

namespace Sys2Proof.Machine

/-! ### The decoder and `check` refuse the same words, in the same order (30_encoding.md R78) -/

theorem check_busy (c : Word) {r : Regs} (hb : r.busy = true) : check c r = .busy := if_pos hb

theorem check_decode_error {c : Word} {e : DecodeError} {r : Regs} (hb : r.busy = false) (h : decode c = .error e) :
    check c r = errorOf e := by
  unfold decode at h
  rw [check, hb, if_neg Bool.false_ne_true]
  split at h
  · rename_i hopc
    cases h
    exact if_pos hopc
  · rename_i hopc
    rw [if_neg hopc]
    split at h
    · rename_i hreserved
      cases h
      exact if_pos hreserved
    · rename_i hreserved
      rw [if_neg hreserved]
      split at h
      · rename_i hmodred
        split at h
        · rename_i hsrc
          cases h
          exact if_pos ⟨hmodred, hsrc⟩
        · cases h
      · cases h

theorem check_modred {c : Word} {d : Size} {r : Regs} (hb : r.busy = false) (h : decode c = .ok (.modred d)) :
    check c r = if d = 0#7 ∨ d.toNat > 64 then .baddeg else .none := by
  obtain ⟨hhigh, hbit11, hsrc, hopc, rfl⟩ := (decode_eq_modred c d).1 h
  simp [check, hb, hhigh, hbit11, hsrc, hopc]

theorem check_reflect {c : Word} {w : Size} {src : Src} {r : Regs} (hb : r.busy = false)
    (h : decode c = .ok (.reflect w src)) :
    check c r = if w = 0#7 ∨ w.toNat > 64 then .badwid else if fieldSrc c = 3#2 then .badsrc else .none := by
  obtain ⟨hhigh, hbit11, -, hopc, rfl⟩ := (decode_eq_reflect c w src).1 h
  simp [check, hb, hhigh, hbit11, hopc]

theorem accept_modred {c : Word} {d : Size} (h : decode c = .ok (.modred d)) (r : Regs) :
    accept c r = modredAccept d (acceptCommon r) := by
  obtain ⟨-, -, -, hopc, rfl⟩ := (decode_eq_modred c d).1 h
  exact if_pos hopc

theorem accept_reflect {c : Word} {w : Size} {src : Src} (h : decode c = .ok (.reflect w src)) (r : Regs) :
    accept c r = reflectAccept w (wordOperand c r) (acceptCommon r) := by
  obtain ⟨-, -, -, hopc, rfl⟩ := (decode_eq_reflect c w src).1 h
  rw [accept, hopc]; rfl

/-- The operand that a REFLECT word selects: none for SRC = 3 alone (30_encoding.md R74). -/
theorem srcOperand_reflect {c : Word} {w : Size} {src : Src} (h : decode c = .ok (.reflect w src)) (r : Regs) :
    srcOperand r src = if fieldSrc c = 3#2 then none else some (wordOperand c r) := by
  obtain ⟨-, -, rfl, -, -⟩ := (decode_eq_reflect c w src).1 h
  rw [wordOperand]
  obtain h0 | h1 | h2 | h3 : fieldSrc c = 0#2 ∨ fieldSrc c = 1#2 ∨ fieldSrc c = 2#2 ∨ fieldSrc c = 3#2 := by
    generalize fieldSrc c = b
    revert b; decide
  · rw [h0]; rfl
  · rw [h1]; rfl
  · rw [h2]; rfl
  · rw [h3]; rfl

theorem commandRegs_decode {c : Word} {i : Instr} (h : decode c = .ok i) (r : Regs) : commandRegs c r = issue i r := by
  rw [commandRegs, h]

theorem commandRegs_decode_error {c : Word} {e : DecodeError} {r : Regs} (hb : r.busy = false)
    (h : decode c = .error e) : commandRegs c r = record (errorOf e) r := by
  rw [commandRegs, h, hb]; rfl

/-- `CmdWrite` of the spec refuses with what `check` answers. -/
theorem cmdWriteRegs_rejected {c : Word} {code : ErrorCode} {r : Regs} (h : check c r = code) (hne : code ≠ .none) :
    cmdWriteRegs c r = record code r := by
  rw [cmdWriteRegs, h, if_neg hne]

theorem cmdWriteRegs_accepted {c : Word} {r : Regs} (h : check c r = .none) : cmdWriteRegs c r = accept c r :=
  if_pos h

/-- The decoder and the commands' own checks together are `CmdWrite` of the spec (40_host_access.md R95). -/
theorem commandRegs_eq_cmdWriteRegs (c : Word) (r : Regs) : commandRegs c r = cmdWriteRegs c r := by
  cases hb : r.busy with
  | true => rw [commandRegs_busy c hb, cmdWriteRegs_rejected (check_busy c hb) (by decide)]
  | false =>
    cases hdec : decode c with
    | error e =>
      rw [commandRegs_decode_error hb hdec, cmdWriteRegs_rejected (check_decode_error hb hdec) (errorOf_ne_none e)]
    | ok i => cases i with
      | modred d =>
        have hcheck := check_modred hb hdec
        rw [commandRegs_decode hdec, issue, modredIssue, hb, if_neg Bool.false_ne_true]
        split
        · rename_i hbad
          rw [if_pos hbad] at hcheck
          rw [cmdWriteRegs_rejected hcheck (by decide)]
        · rename_i hlegal
          rw [if_neg hlegal] at hcheck
          rw [cmdWriteRegs_accepted hcheck, accept_modred hdec]
      | reflect w src =>
        have hcheck := check_reflect hb hdec
        rw [commandRegs_decode hdec, issue, reflectIssue, hb, if_neg Bool.false_ne_true, srcOperand_reflect hdec]
        split
        · rename_i hbad
          rw [if_pos hbad] at hcheck
          rw [cmdWriteRegs_rejected hcheck (by decide)]
        · rename_i hlegal
          rw [if_neg hlegal] at hcheck
          by_cases hsrc : fieldSrc c = 3#2
          · rw [if_pos hsrc] at hcheck ⊢
            rw [cmdWriteRegs_rejected hcheck (by decide)]
          · rw [if_neg hsrc] at hcheck ⊢
            rw [cmdWriteRegs_accepted hcheck, accept_reflect hdec]

/-! ### The obligations -/

/-- Settles O6: the machine's CMD write is `CmdWrite` of the spec, taken by the two answers of its check. -/
theorem cmdWriteFollowsCheck : Obligations.CmdWriteFollowsCheck := by
  refine ⟨fun s rest c hr hi => ?_, by decide⟩
  rw [step_cmdWrite hr hi, commandRegs_eq_cmdWriteRegs]
  refine ⟨fun hok => ?_, fun hrejected => ?_⟩
  · rw [cmdWriteRegs_accepted hok]
  · rw [cmdWriteRegs_rejected rfl hrejected]; rfl

/-- Settles O5: the registers after the CMD write of a word that decodes are those after the command's issue. -/
theorem stepRunsDecodedCommand : Obligations.StepRunsDecodedCommand := by
  intro s rest c i hr hi hdec
  have hstep := step_cmdWrite hr hi
  refine ⟨?_, _, hstep⟩
  rw [hstep, commandRegs_decode hdec, exec_eq, andThen_next]
  rfl

end Sys2Proof.Machine
end

section
/-! PROOFS. The engine on an idle block (40_host_access.md R100), its turns to the completion of a command (R102), and the order
of the host's transaction and the engine's step in one clock cycle (R104). -/

namespace Sys2Proof.Machine

/-! ### A clock edge outside reset (40_host_access.md R104) -/

theorem step_edge {s : State} {rest : List Event} {p : Pins} (hr : s.inReset = false) (hp : p.rstN = true)
    (hi : s.inputs = .edge p :: rest) : step s = cycle p.transaction? (s.setInputs rest) := by
  rw [step, advance, hi]
  show clockEdge p (s.setInputs rest) = _
  rw [clockEdge, hp, setInputs_inReset, hr]; rfl

theorem step_hostTurn {s : State} {rest : List Event} {tr : Transaction} (hi : s.inputs = .host tr :: rest) :
    step s = hostStep tr (s.setInputs rest) := by
  rw [step, advance, hi]; rfl

theorem step_engineTurn {s : State} {rest : List Event} (hi : s.inputs = .engine :: rest) :
    step s = engineStep (s.setInputs rest) := by
  rw [step, advance, hi]; rfl

/-- A cycle without a transaction is the engine's turn. -/
theorem cycle_none (s : State) : cycle none s = engineStep s := by
  rw [cycle, hostPart, andThen_next]
  cases hb : s.regs.busy with
  | true => rfl
  | false => exact (engineStep_idle hb).symm

/-- A cycle with a transaction while a command is in flight: the engine's turn sees what the transaction left. -/
theorem cycle_some_busy (tr : Transaction) {s : State} (hr : s.inReset = false) (hb : s.regs.busy = true) :
    cycle (some tr) s = engineStep ((s.setRegs (hostRegs tr s.regs)).respond (hostAnswer tr s.regs)) := by
  rw [cycle, hostPart, hostStep_eq tr hr, andThen_next, if_pos hb]

/-- A cycle with a transaction on an idle block is the transaction: a command accepted in it gets no engine step yet. -/
theorem cycle_some_idle (tr : Transaction) {s : State} (hr : s.inReset = false) (hb : s.regs.busy = false) :
    cycle (some tr) s = hostStep tr s := by
  rw [cycle, hostPart, hostStep_eq tr hr, andThen_next, hb]; rfl

/-- The host's turn and then the engine's, as two steps. -/
theorem run_host_engine {s : State} {rest : List Event} {tr : Transaction} (hr : s.inReset = false)
    (hi : s.inputs = .host tr :: .engine :: rest) :
    run 2 s = engineStep (s.answered rest (hostRegs tr s.regs) (hostAnswer tr s.regs)) := by
  have hfirst : run 1 s = .next (s.answered (.engine :: rest) (hostRegs tr s.regs) (hostAnswer tr s.regs)) := by
    rw [run, step_host hr hi]; rfl
  rw [run_succ_last hfirst, step_engineTurn rfl]; rfl

@[simp] theorem Pins.access_rstN (tr : Transaction) : (Pins.access tr).rstN = true := by cases tr <;> rfl

@[simp] theorem Pins.access_transaction? (tr : Transaction) : (Pins.access tr).transaction? = some tr := by
  cases tr <;> rfl

/-- The edge that ends a transaction's access phase while a command is in flight. -/
theorem step_access_busy {s : State} {rest : List Event} {tr : Transaction} (hr : s.inReset = false)
    (hb : s.regs.busy = true) (hi : s.inputs = .edge (Pins.access tr) :: rest) :
    step s = engineStep (s.answered rest (hostRegs tr s.regs) (hostAnswer tr s.regs)) := by
  rw [step_edge hr (Pins.access_rstN tr) hi, Pins.access_transaction?]
  exact cycle_some_busy tr (s := s.setInputs rest) hr hb

/-! ### The completing step (40_host_access.md R103) -/

/-- The engine's turn at the end of a command completes it and leaves ERR, ECODE and the schedule. -/
theorem engineStep_last {s : State} (h : s.regs.Inv) (hr : s.inReset = false) (hb : s.regs.busy = true)
    (hc : s.regs.wCnt = 0#32) :
    ∃ t, engineStep s = .next t ∧ t.inputs = s.inputs ∧ t.regs.busy = false ∧ t.regs.done = true ∧
      t.regs.err = s.regs.err ∧ t.regs.ecode = s.regs.ecode := by
  obtain ⟨r, he, hflags⟩ := engineRegs_last h hb hc
  exact ⟨_, engineStep_busy hr hb he, rfl, hflags⟩

/-- The host's transaction in the completing cycle keeps the command in flight: the command completes after it. -/
theorem step_completingCycle {s : State} {rest : List Event} {tr : Transaction} (h : s.regs.Inv)
    (hr : s.inReset = false) (hb : s.regs.busy = true) (hc : s.regs.wCnt = 0#32)
    (hi : s.inputs = .edge (Pins.access tr) :: rest) (k : KeepsFlight s.regs (hostRegs tr s.regs)) :
    ∃ t, step s = .next t ∧ t.regs.busy = false ∧ t.regs.done = true ∧ t.regs.err = (hostRegs tr s.regs).err ∧
      t.regs.ecode = (hostRegs tr s.regs).ecode := by
  obtain ⟨b, move, -⟩ := hostRegs_move tr s.regs
  obtain ⟨t, ht, -, hflags⟩ := engineStep_last (s := s.answered rest (hostRegs tr s.regs) (hostAnswer tr s.regs))
    (move.inv h) hr (k.busy.trans hb) (k.wCnt.trans hc)
  exact ⟨t, (step_access_busy hr hb hi).trans ht, hflags⟩

/-! ### The iterations before it (40_host_access.md R102) -/

/-- r' is r after k iterations: still in flight with k iterations less to go, and no error recorded. -/
structure IteratedTimes (k : Nat) (r r' : Regs) : Prop where
  inv : r'.Inv
  busy : r'.busy = r.busy
  err : r'.err = r.err
  ecode : r'.ecode = r.ecode
  cnt : r'.wCnt.toNat + k = r.wCnt.toNat

theorem IteratedTimes.of_iterated {k : Nat} {r r' : Regs} (hc : r.wCnt ≠ 0#32) (i : IteratedTimes k (iterated r) r') :
    IteratedTimes (k + 1) r r' where
  inv := i.inv
  busy := i.busy
  err := i.err
  ecode := i.ecode
  cnt := by rw [toNat_eq_pred_add_one hc, ← add_assoc]; exact congrArg (· + 1) i.cnt

/-- As many of the engine's turns as there are iterations left are that many iterations. -/
theorem run_iterations {k : Nat} {s : State} {rest : List Event} (h : s.regs.Inv) (hr : s.inReset = false)
    (hb : s.regs.busy = true) (hi : s.inputs = List.replicate k .engine ++ rest) (hk : k ≤ s.regs.wCnt.toNat) :
    ∃ r, run k s = .next { s with inputs := rest, regs := r } ∧ IteratedTimes k s.regs r := by
  induction k generalizing s with
  | zero => exact ⟨s.regs, by rw [run, ← show s.inputs = rest from hi], h, rfl, rfl, rfl, rfl⟩
  | succ k ih =>
    have hc : s.regs.wCnt ≠ 0#32 := fun h0 => by simp [h0] at hk
    have he := engineRegs_iterated h hc
    have hk' := toNat_eq_pred_add_one hc
    obtain ⟨r, hrun, i⟩ := ih
      (s := { s with inputs := List.replicate k .engine ++ rest, regs := iterated s.regs })
      (engineRegs_inv he h) hr hb rfl (show k ≤ (s.regs.wCnt - 1#32).toNat by omega)
    exact ⟨r, by rw [run, step_engine hr hi hb he]; exact hrun, i.of_iterated hc⟩

/-! ### The obligations -/

/-- Settles O26: both are the engine's turn, which is none on an idle block. -/
theorem engineIdlesWhenNotBusy : Obligations.EngineIdlesWhenNotBusy := by
  intro s rest hb
  have hidle : engineStep (s.setInputs rest) = .next { s with inputs := rest } := engineStep_idle hb
  refine ⟨fun hi => ?_, fun p hr hp htr hi => ?_⟩
  · rw [step_engineTurn hi, hidle]
  · rw [step_edge hr hp hi, htr, cycle_none, hidle]

/-- Settles O28: W_CNT iterations keep the command in flight, and the turn after them completes it. -/
theorem everyCommandCompletes : Obligations.EveryCommandCompletes := by
  intro s rest h hr hb hi
  refine ⟨fun k hk => ?_, ?_⟩
  · have hsplit : s.inputs =
        List.replicate k .engine ++ (List.replicate (s.regs.wCnt.toNat + 1 - k) .engine ++ rest) := by
      rw [hi, ← List.append_assoc, List.replicate_append_replicate, Nat.add_sub_cancel' (by omega)]
    obtain ⟨r, hrun, i⟩ := run_iterations h.regs hr hb hsplit hk
    have hbusy := i.busy.trans hb
    exact ⟨_, hrun, hbusy, i.inv.busy_not_done hbusy⟩
  · have hlast : s.inputs = List.replicate s.regs.wCnt.toNat .engine ++ .engine :: rest := by
      rw [hi, List.replicate_succ', List.append_assoc]; rfl
    obtain ⟨r, hrun, i⟩ := run_iterations h.regs hr hb hlast le_rfl
    have hc : r.wCnt = 0#32 := BitVec.eq_of_toNat_eq (by have := i.cnt; simp; omega)
    obtain ⟨t, ht, hinputs, hidle, hdone, herr, hecode⟩ :=
      engineStep_last (s := { s with inputs := rest, regs := r }) i.inv hr (i.busy.trans hb) hc
    refine ⟨t, ?_, hinputs, hidle, hdone, herr.trans i.err, hecode.trans i.ecode⟩
    rw [run_succ_last hrun, step_engineTurn rfl]; exact ht

/-- Settles O43: a cycle is the two turns one after the other, so the engine's turn sees what each transaction leaves: a
recorded error, an aborted command, a cleared DONE. -/
theorem cycleOrder : Obligations.CycleOrder := by
  refine ⟨fun s rest p hr hp hi => ⟨fun tr htr => ⟨fun hb => ?_, fun hb => ?_⟩, fun htr => ?_⟩,
    fun s rest h hr hb hc => ⟨fun c hi => ?_, fun hi => ?_, fun v hv hi => ?_, fun tr hi => ?_⟩⟩
  · rw [step_edge hr hp hi, htr, run_host_engine (s := { s with inputs := .host tr :: .engine :: rest }) hr rfl]
    exact cycle_some_busy tr (s := s.setInputs rest) hr hb
  · rw [step_edge hr hp hi, htr, step_hostTurn rfl]
    exact cycle_some_idle tr (s := s.setInputs rest) hr hb
  · rw [step_edge hr hp hi, htr, cycle_none, step_engineTurn rfl]; rfl
  · have hregs : hostRegs (.write 0x0C#8 c 0b1111#4) s.regs = record .busy s.regs :=
      (hostRegs_writeCmd c s.regs).trans (commandRegs_busy c hb)
    obtain ⟨t, ht, hidle, hdone, herr, hecode⟩ :=
      step_completingCycle h.regs hr hb hc hi (hregs ▸ record_keepsFlight .busy s.regs)
    rw [hregs] at herr hecode
    exact ⟨t, ht, hidle, hdone, herr, hecode⟩
  · have a : Aborted s.regs (ctrlWrite 0x100#32 s.regs) := ctrlWrite_aborted hb rfl rfl
    have hstep := (step_access_busy hr hb hi).trans (engineStep_idle a.busy)
    exact ⟨_, hstep, a.busy, a.done.trans (h.regs.busy_not_done hb), a.err, a.rem, a.quo, a.qtrunc, a.refl⟩
  · obtain ⟨t, ht, hidle, hdone, -⟩ :=
      step_completingCycle h.regs hr hb hc hi (statusWrite_keepsFlight v s.regs)
    exact ⟨h.regs.busy_not_done hb, t, ht, hidle, hdone⟩
  · obtain ⟨t, ht, hinputs, hidle, hdone, -⟩ := engineStep_last (s := s.setInputs (.host tr :: rest)) h.regs hr hb hc
    exact ⟨t, (step_engineTurn hi).trans ht, hidle, hdone, hinputs⟩

end Sys2Proof.Machine
end

section
/-! PROOFS. REFLECT (41_reflect.md): its issue with a rule for each branch (R110), its completion (R112), and the arithmetic of
reflection (R115 to R117). -/

namespace Sys2Proof.Machine

/-! ### The issue of a REFLECT, branch by branch (30_encoding.md R78, 41_reflect.md R110) -/

/-- The test for an illegal SIZE, in numbers. -/
theorem badSize_iff (z : Size) : (z = 0#7 ∨ z.toNat > 64) ↔ z.toNat = 0 ∨ 64 < z.toNat := by
  rw [BitVec.toNat_eq]; rfl

theorem not_badSize {z : Size} (h1 : 1 ≤ z.toNat) (h64 : z.toNat ≤ 64) : ¬(z = 0#7 ∨ z.toNat > 64) := by
  rw [badSize_iff]; omega

theorem reflectIssue_busy (w : Size) (src : Src) {r : Regs} (hb : r.busy = true) :
    reflectIssue w src r = record .busy r :=
  if_pos hb

theorem reflectIssue_idle_badSize {w : Size} (src : Src) {r : Regs} (hb : r.busy = false)
    (hw : w.toNat = 0 ∨ 64 < w.toNat) : reflectIssue w src r = record .badwid r := by
  rw [reflectIssue, hb, if_neg Bool.false_ne_true, if_pos ((badSize_iff w).2 hw)]

theorem reflectIssue_idle_reserved {w : Size} {r : Regs} (hb : r.busy = false) (h1 : 1 ≤ w.toNat)
    (h64 : w.toNat ≤ 64) : reflectIssue w .reserved r = record .badsrc r := by
  rw [reflectIssue, hb, if_neg Bool.false_ne_true, if_neg (not_badSize h1 h64)]; rfl

theorem reflectIssue_accepted {w : Size} {src : Src} {r : Regs} {v : DWord} (hb : r.busy = false) (h1 : 1 ≤ w.toNat)
    (h64 : w.toNat ≤ 64) (hv : srcOperand r src = some v) :
    reflectIssue w src r = reflectAccept w v (acceptCommon r) := by
  rw [reflectIssue, hb, if_neg Bool.false_ne_true, if_neg (not_badSize h1 h64), hv]

theorem exec_reflect_accepted {w : Size} {src : Src} {s : State} {v : DWord} (hb : s.regs.busy = false)
    (h1 : 1 ≤ w.toNat) (h64 : w.toNat ≤ 64) (hv : srcOperand s.regs src = some v) :
    exec (.reflect w src) s = .next (s.setRegs (reflectAccept w v (acceptCommon s.regs))) := by
  rw [exec_eq, issue, reflectIssue_accepted hb h1 h64 hv]

/-- Every source but SRC = 3 selects an operand (30_encoding.md R74). -/
theorem exists_srcOperand {src : Src} (h : src ≠ .reserved) (r : Regs) : ∃ v, srcOperand r src = some v := by
  cases src with
  | reserved => exact absurd rfl h
  | val => exact ⟨_, rfl⟩
  | rem => exact ⟨_, rfl⟩
  | quo => exact ⟨_, rfl⟩

/-! ### Its completion (41_reflect.md R112) -/

theorem step_reflectCompletion {s : State} {rest : List Event} (hr : s.inReset = false)
    (hi : s.inputs = .engine :: rest) (hb : s.regs.busy = true) (ho : s.regs.wOp = .reflect)
    (hc : s.regs.wCnt = 0#32) (h1 : 1 ≤ s.regs.wWid.toNat) (h64 : s.regs.wWid.toNat ≤ 64) :
    step s = .next { s with inputs := rest, regs := completeCommon (reflectComplete s.regs) } :=
  step_engine hr hi hb (engineRegs_reflect_done ho hc h1 h64)

/-- Acceptance on an idle block and then completion: BUSY is back at 0. -/
theorem reflectAccept_completed {r : Regs} (hb : r.busy = false) (w : Size) (v : DWord) :
    completeCommon (reflectComplete (reflectAccept w v (acceptCommon r))) =
      { r with refl := reflect v w.toNat, done := true, wOp := .none, wWid := w, wVal := v, wCnt := 0#32 } := by
  rw [hb]; rfl

/-! ### The arithmetic of reflection (41_reflect.md R111, R115, R116) -/

theorem getLsbD_reflect_below (v : DWord) {w i : Nat} (hw : w ≤ 64) (hi : i < w) :
    (reflect v w).getLsbD i = v.getLsbD (w - 1 - i) := by
  rw [getLsbD_reflect v hw, decide_eq_true hi, Bool.true_and]

theorem getLsbD_reflect_above (v : DWord) {w i : Nat} (hw : w ≤ 64) (hi : w ≤ i) :
    (reflect v w).getLsbD i = false := by
  rw [getLsbD_reflect v hw, decide_eq_false (Nat.not_lt.2 hi), Bool.false_and]

/-- Below w the second reflection takes each bit back to its place; above, both sides are 0. -/
theorem reflect_reflect (v : DWord) {w : Nat} (hw : w ≤ 64) : reflect (reflect v w) w = v &&& mask w := by
  apply BitVec.eq_of_getLsbD_eq
  intro i _
  rw [BitVec.getLsbD_and, getLsbD_mask hw]
  by_cases hi : i < w
  · rw [getLsbD_reflect_below _ hw hi, getLsbD_reflect_below v hw (by omega), Nat.sub_sub_self (by omega),
      decide_eq_true hi, Bool.and_true]
  · rw [getLsbD_reflect_above _ hw (by omega), decide_eq_false hi, Bool.and_false]

theorem and_eq_self_of_and_not_eq_zero {n : Nat} {v m : BitVec n} (h : v &&& ~~~m = 0#n) : v &&& m = v :=
  calc v &&& m = v &&& m ||| v &&& ~~~m := by rw [h, BitVec.or_zero]
    _ = v := by rw [← BitVec.and_or_distrib_left, BitVec.or_not_self, BitVec.and_allOnes]

/-- Reflection of width 1 keeps bit 0 alone (41_reflect.md R115). -/
theorem reflect_one (v : DWord) : reflect v 1 = v &&& 1#64 := by
  apply BitVec.eq_of_getLsbD_eq
  intro i _
  rw [BitVec.getLsbD_and, show 1#64 = mask 1 from rfl, getLsbD_mask (by decide)]
  by_cases hi : i < 1
  · obtain rfl : i = 0 := by omega
    rw [getLsbD_reflect_below v (by decide) hi, decide_eq_true hi, Bool.and_true]
  · rw [getLsbD_reflect_above v (by decide) (by omega), decide_eq_false hi, Bool.and_false]

/-! ### The obligations -/

/-- Settles O23: acceptance with the operand that the source selects, then its completion, whose bits are the
reflection's. -/
theorem reflectRunsToResult : Obligations.ReflectRunsToResult := by
  intro s rest w src h1 h64 hsrc hb hr hi
  obtain ⟨v, hv⟩ := exists_srcOperand hsrc s.regs
  refine ⟨_, v, exec_reflect_accepted hb h1 h64 hv, rfl, rfl, ?_, reflect v w.toNat, ?_,
    fun i => getLsbD_reflect_below v h64, fun i => getLsbD_reflect_above v h64⟩
  · cases src with
    | reserved => exact absurd rfl hsrc
    | _ => exact (Option.some.inj hv).symm
  · rw [← reflectAccept_completed hb]
    exact step_reflectCompletion (s := s.setRegs _) hr hi rfl rfl rfl h1 h64

/-- Settles O24: reflecting twice masks, and masking leaves a value of w bits as it is. -/
theorem reflectIsAnInvolution : Obligations.ReflectIsAnInvolution := by
  intro v w _ hw
  exact ⟨fun h => (reflect_reflect v hw).trans (and_eq_self_of_and_not_eq_zero h), reflect_reflect v hw⟩

/-- Settles O21: the accepted branch, for the operand of each source. -/
theorem reflectAcceptance : Obligations.ReflectAcceptance := by
  intro s w h1 h64 hb
  exact ⟨exec_reflect_accepted hb h1 h64 rfl, exec_reflect_accepted hb h1 h64 rfl, exec_reflect_accepted hb h1 h64 rfl⟩

/-- Settles O22: the three branches that record, in the order of 30_encoding.md R78. -/
theorem reflectRejection : Obligations.ReflectRejection := by
  intro s w src
  refine ⟨fun hb => ?_, fun hb hw => ?_, fun hb h1 h64 => ?_⟩
  · rw [exec_eq, issue, reflectIssue_busy w src hb]; rfl
  · rw [exec_eq, issue, reflectIssue_idle_badSize src hb hw]; rfl
  · rw [exec_eq, issue, reflectIssue_idle_reserved hb h1 h64]; rfl

/-- Settles O25: width 1 for every value, and the closed examples by evaluation. -/
theorem reflectExamples : Obligations.ReflectExamples :=
  ⟨reflect_one, by decide +kernel⟩

/-- Settles O29: the engine's completing step, with its two updates written out as one. -/
theorem reflectCompletion : Obligations.ReflectCompletion :=
  fun _ _ hr hi hb ho hc h1 h64 => step_reflectCompletion hr hi hb ho hc h1 h64

end Sys2Proof.Machine
end

section
/-! PROOFS. MODRED on the machine (42_modreduce.md): its issue with a rule for each branch (R121, R133), the engine's steps on it
(R122, R123), and its run to the closed form (R135). -/

namespace Sys2Proof.Machine

/-! ### The issue of a MODRED, branch by branch (30_encoding.md R78, 42_modreduce.md R121, R133) -/

theorem modredIssue_busy (d : Size) {r : Regs} (hb : r.busy = true) : modredIssue d r = record .busy r :=
  if_pos hb

theorem modredIssue_idle_badSize {d : Size} {r : Regs} (hb : r.busy = false) (hd : d.toNat = 0 ∨ 64 < d.toNat) :
    modredIssue d r = record .baddeg r := by
  rw [modredIssue, hb, if_neg Bool.false_ne_true, if_pos ((badSize_iff d).2 hd)]

theorem modredIssue_accepted {d : Size} {r : Regs} (hb : r.busy = false) (h1 : 1 ≤ d.toNat) (h64 : d.toNat ≤ 64) :
    modredIssue d r = modredAccept d (acceptCommon r) := by
  rw [modredIssue, hb, if_neg Bool.false_ne_true, if_neg (not_badSize h1 h64)]

theorem exec_modred_accepted {d : Size} {s : State} (hb : s.regs.busy = false) (h1 : 1 ≤ d.toNat)
    (h64 : d.toNat ≤ 64) : exec (.modred d) s = .next (s.setRegs (modredAccept d (acceptCommon s.regs))) := by
  rw [exec_eq, issue, modredIssue_accepted hb h1 h64]

theorem sub_degree_eq_ofNat {n : Word} {d : Size} (h : d.toNat ≤ n.toNat) :
    n - d.setWidth 32 = BitVec.ofNat 32 (n.toNat - d.toNat) := by
  bv_omega

/-- Both cases of acceptance as one: for n < d there are max(0, n − d) = 0 iterations too. -/
theorem modredAccept_eq (d : Size) (r : Regs) : modredAccept d (acceptCommon r) = { r with
    busy := true, done := false, wOp := .modred, wDeg := d
    wPoly := r.poly &&& mask d.toNat
    wRem := r.poly &&& mask d.toNat
    wQuo := if r.n.toNat < d.toNat then 0#64 else 1#64
    wCnt := BitVec.ofNat 32 (r.n.toNat - d.toNat)
    wTrunc := decide (64 ≤ r.n.toNat - d.toNat) } := by
  rw [modredAccept]
  split
  next hlt =>
    change r.n.toNat < d.toNat at hlt
    rw [if_pos hlt, Nat.sub_eq_zero_of_le (Nat.le_of_lt hlt)]; rfl
  next hge =>
    change ¬r.n.toNat < d.toNat at hge
    rw [if_neg hge, ← sub_degree_eq_ofNat (Nat.not_lt.1 hge)]; rfl

/-- The iterations of an accepted MODRED, as a number: N has 32 bits. -/
theorem modredAccept_wCnt (d : Size) (r : Regs) :
    (modredAccept d (acceptCommon r)).wCnt.toNat = r.n.toNat - d.toNat := by
  rw [modredAccept_eq]
  exact Nat.mod_eq_of_lt (lt_of_le_of_lt (Nat.sub_le _ _) r.n.isLt)

/-! ### The closed form and the accepted command (42_modreduce.md R124) -/

/-- Both cases of the closed form as one. -/
theorem modReduce_eq (n : Nat) (poly : DWord) (d : Nat) : modReduce n poly d =
    let x := divIter d (poly &&& mask d) (n - d) { rem := poly &&& mask d, quo := if n < d then 0#64 else 1#64 }
    { rem := x.rem, quo := x.quo, trunc := decide (64 ≤ n - d) } := by
  rw [modReduce]
  split
  · rename_i hlt
    rw [Nat.sub_eq_zero_of_le hlt.le]; rfl
  · rfl

/-- For n ≤ d there is no iteration. -/
theorem modReduce_of_le {n d : Nat} (h : n ≤ d) (poly : DWord) : modReduce n poly d =
    { rem := poly &&& mask d, quo := if n < d then 0#64 else 1#64, trunc := false } := by
  rw [modReduce_eq, Nat.sub_eq_zero_of_le h]; rfl

/-- Acceptance leads to the closed form of the operands. -/
theorem modredAccept_inFlight {d : Size} (h1 : 1 ≤ d.toNat) (h64 : d.toNat ≤ 64) (r : Regs) :
    ModredInFlight (modReduce r.n.toNat r.poly d.toNat) (modredAccept d (acceptCommon r)) := by
  have hcnt := modredAccept_wCnt d r
  rw [modredAccept_eq] at hcnt ⊢
  rw [modReduce_eq]
  exact { busy := rfl, op := rfl, degree := ⟨h1, h64⟩, leads := by rw [hcnt], trunc := rfl }

/-! ### The engine's turns on a MODRED that leads to a result -/

/-- As many of the engine's turns as there are iterations left are that many iterations: they change the working registers
alone, and what they leave leads to the same result. -/
theorem ModredInFlight.run_iterations {k : Nat} {s : State} {rest : List Event} {res : DivResult}
    (m : ModredInFlight res s.regs) (hr : s.inReset = false) (hi : s.inputs = List.replicate k .engine ++ rest)
    (hk : k ≤ s.regs.wCnt.toNat) :
    ∃ rem quo cnt, cnt.toNat = s.regs.wCnt.toNat - k ∧
      ModredInFlight res { s.regs with wRem := rem, wQuo := quo, wCnt := cnt } ∧
      run k s = .next { s with inputs := rest, regs := { s.regs with wRem := rem, wQuo := quo, wCnt := cnt } } := by
  induction k generalizing s with
  | zero => exact ⟨_, _, s.regs.wCnt, rfl, m, by rw [run, ← show s.inputs = rest from hi]⟩
  | succ k ih =>
    have hc : s.regs.wCnt ≠ 0#32 := fun h0 => by simp [h0] at hk
    have hcnt := toNat_eq_pred_add_one hc
    have he := engineRegs_iterate m.op hc m.degree.1 m.degree.2
    obtain ⟨rem, quo, cnt, hleft, m', hrun⟩ := ih
      (s := { s with inputs := List.replicate k .engine ++ rest, regs := iterated s.regs })
      (m.iterate hc) hr rfl (show k ≤ (s.regs.wCnt - 1#32).toNat by omega)
    refine ⟨rem, quo, cnt, ?_, m', ?_⟩
    · rw [hleft, hcnt, Nat.add_sub_add_right]; rfl
    · rw [run, step_engine hr hi m.busy he]; exact hrun

/-- One turn more completes it: the result is written, and of the working registers the running values hold it too. -/
theorem ModredInFlight.run_completes {s : State} {rest : List Event} {res : DivResult}
    (m : ModredInFlight res s.regs) (hr : s.inReset = false)
    (hi : s.inputs = List.replicate (s.regs.wCnt.toNat + 1) .engine ++ rest) :
    run (s.regs.wCnt.toNat + 1) s = .next { s with inputs := rest, regs := { s.regs with
      rem := res.rem, quo := res.quo, qtrunc := res.trunc, busy := false, done := true
      wOp := .none, wRem := res.rem, wQuo := res.quo, wCnt := 0#32 } } := by
  rw [List.replicate_succ', List.append_assoc] at hi
  obtain ⟨rem, quo, cnt, hleft, m', hrun⟩ := m.run_iterations hr hi le_rfl
  obtain rfl : cnt = 0#32 := BitVec.eq_of_toNat_eq (by rw [hleft, Nat.sub_self]; rfl)
  obtain ⟨rfl, rfl⟩ : rem = res.rem ∧ quo = res.quo := m'.at_zero rfl
  rw [run_succ_last hrun, ← m.trunc]
  exact step_engine hr rfl m.busy (engineRegs_modred_done m.op rfl)

/-! ### From the issue to the results (42_modreduce.md R135) -/

/-- An accepted MODRED completes with the closed form after max(0, n − d) + 1 of the engine's turns: the machine in full. -/
theorem run_modred_completes {s : State} {rest : List Event} {d : Size} (h1 : 1 ≤ d.toNat) (h64 : d.toNat ≤ 64)
    (hb : s.regs.busy = false) (hr : s.inReset = false)
    (hi : s.inputs = List.replicate (s.regs.n.toNat - d.toNat + 1) .engine ++ rest) :
    run (s.regs.n.toNat - d.toNat + 1) (s.setRegs (modredAccept d (acceptCommon s.regs))) =
      let res := modReduce s.regs.n.toNat s.regs.poly d.toNat
      .next { s with inputs := rest, regs := { s.regs with
        rem := res.rem, quo := res.quo, qtrunc := res.trunc, done := true
        wOp := .none, wDeg := d, wPoly := s.regs.poly &&& mask d.toNat
        wRem := res.rem, wQuo := res.quo, wCnt := 0#32, wTrunc := res.trunc } } := by
  have hrun := (modredAccept_inFlight h1 h64 s.regs).run_completes
    (s := s.setRegs (modredAccept d (acceptCommon s.regs))) (rest := rest) hr
  rw [setRegs_regs, modredAccept_wCnt] at hrun
  rw [hrun hi, modredAccept_eq, modReduce_eq, ← hb]; rfl

/-- What a completed MODRED wrote. -/
theorem CompletedModred.results {d : Size} {s u : State} (c : CompletedModred d s u) :
    u.regs.rem = (modReduce s.regs.n.toNat s.regs.poly d.toNat).rem ∧
    u.regs.quo = (modReduce s.regs.n.toNat s.regs.poly d.toNat).quo ∧
    u.regs.qtrunc = (modReduce s.regs.n.toNat s.regs.poly d.toNat).trunc := by
  obtain ⟨rest, hi⟩ := c.turns
  obtain ⟨t, ht, hu⟩ := c.completes
  cases (exec_modred_accepted c.idle c.degree_pos c.degree_le).symm.trans ht
  cases (run_modred_completes c.degree_pos c.degree_le c.idle c.running hi).symm.trans hu
  exact ⟨rfl, rfl, rfl⟩

/-! ### The obligations -/

/-- Settles O13: the iterations left after k turns are the accepted command's less k, and the turn after the last iteration
completes it. -/
theorem modredRunsToClosedForm : Obligations.ModredRunsToClosedForm := by
  intro s rest d h1 h64 hb hr n res hi
  refine ⟨_, exec_modred_accepted hb h1 h64, fun k hk => ?_, run_modred_completes h1 h64 hb hr hi⟩
  have hsplit : s.inputs = List.replicate k .engine ++ (List.replicate (n - d.toNat + 1 - k) .engine ++ rest) := by
    rw [hi, ← List.append_assoc, List.replicate_append_replicate, Nat.add_sub_cancel' (by omega)]
  obtain ⟨rem, quo, cnt, hleft, m, hrun⟩ :=
    (modredAccept_inFlight h1 h64 s.regs).run_iterations (s := s.setRegs (modredAccept d (acceptCommon s.regs))) hr hsplit
      (by rw [setRegs_regs, modredAccept_wCnt]; exact hk)
  obtain ⟨hrem, hquo, hq, hrefl⟩ := modredAccept_keepsResults d s.regs
  rw [setRegs_regs, modredAccept_wCnt] at hleft
  exact ⟨_, hrun, m.busy, by rw [setRegs_regs, modredAccept_eq], hleft, hrem, hquo, hq, hrefl⟩

/-- Settles O16: with no iteration to perform, the run to the closed form is one turn. -/
theorem modredDegenerateCases : Obligations.ModredDegenerateCases := by
  intro s rest d h1 h64 hb hr hi hn
  have hrun := run_modred_completes (rest := rest) h1 h64 hb hr
  rw [Nat.sub_eq_zero_of_le hn, modReduce_of_le hn] at hrun
  exact ⟨_, _, exec_modred_accepted hb h1 h64, (run_succ_last rfl).symm.trans (hrun hi), hb, rfl, rfl, rfl, rfl, rfl, rfl⟩

/-- Settles O31: acceptance leads to the closed form, and clears DONE. -/
theorem acceptedModredLeadsToClosedForm : Obligations.AcceptedModredLeadsToClosedForm := by
  intro s t d h1 h64 hb ht
  cases (exec_modred_accepted hb h1 h64).symm.trans ht
  exact ⟨modredAccept_inFlight h1 h64 s.regs, by rw [setRegs_regs, modredAccept_eq]⟩

/-- Settles O11: the registers are those of the engine's iteration, and confinement and the identity are the arithmetic of
`divStep`. -/
theorem engineIteration : Obligations.EngineIteration := by
  intro s rest hr hi hb ho hc h1 h64 d h rem'
  refine ⟨step_engine hr hi hb (engineRegs_iterate ho hc h1 h64),
    fun hp => divStep_rem_lt ⟨s.regs.wRem, s.regs.wQuo⟩ h64 hp, fun hp hrem q k hk => ?_⟩
  rw [two_pow_or_eq_xor hp] at hk ⊢
  have hnext := divStep_identity (p := s.regs.wPoly) (x := ⟨s.regs.wRem, s.regs.wQuo⟩) h1 h64 hrem hk
  rw [BitVec.testBit_toNat] at hnext
  exact hnext

/-- Settles O9: the accepted branch, with its two cases as one. -/
theorem modredAcceptance : Obligations.ModredAcceptance := by
  intro s d h1 h64 hb
  rw [exec_modred_accepted hb h1 h64, modredAccept_eq]; rfl

/-- Settles O10: the two branches that record, in the order of 30_encoding.md R78. -/
theorem modredRejection : Obligations.ModredRejection := by
  intro s d
  refine ⟨fun hb => ?_, fun hb hd => ?_⟩
  · rw [exec_eq, issue, modredIssue_busy d hb]; rfl
  · rw [exec_eq, issue, modredIssue_idle_badSize hb hd]; rfl

/-- Settles O12: the engine's completing step, with its two updates written out as one. -/
theorem modredCompletion : Obligations.ModredCompletion :=
  fun _ _ hr hi hb ho hc => step_engine hr hi hb (engineRegs_modred_done ho hc)

end Sys2Proof.Machine
end

section
/-! PROOFS. What a completed MODRED wrote, as polynomials (42_modreduce.md R124 to R131), and the worked examples (R138). -/

namespace Sys2Proof.Machine

/-! ### The full quotient (42_modreduce.md R124, R128) -/

/-- q is the full quotient of x^(d + k) that the running pair x stands for: of degree k, with x's quotient its low 64
coefficients, and with x's remainder by x^d + p. -/
structure IsFullQuotient (d : Nat) (p : DWord) (k : Nat) (x : Division) (q : Nat) : Prop where
  low : 2 ^ k ≤ q
  high : q < 2 ^ (k + 1)
  rem_lt : x.rem.toNat < 2 ^ d
  identity : 2 ^ (d + k) = clmul q (2 ^ d ^^^ p.toNat) ^^^ x.rem.toNat
  quo : x.quo.toNat = q % 2 ^ 64

/-- The start of the division: x^d = 1·(x^d + p) + p. -/
theorem isFullQuotient_one {d : Nat} {p : DWord} (hp : p.toNat < 2 ^ d) :
    IsFullQuotient d p 0 { rem := p, quo := 1#64 } 1 where
  low := le_rfl
  high := one_lt_two
  rem_lt := hp
  identity := by rw [clmul_one, Nat.xor_assoc, Nat.xor_self, Nat.xor_zero, Nat.add_zero]
  quo := rfl

/-- One iteration appends its bit h to the full quotient (42_modreduce.md R122). -/
theorem IsFullQuotient.divStep {d k q : Nat} {p : DWord} {x : Division} (i : IsFullQuotient d p k x q) (h1 : 1 ≤ d)
    (h64 : d ≤ 64) (hp : p.toNat < 2 ^ d) :
    IsFullQuotient d p (k + 1) (divStep d p x) (2 * q + (if x.rem.toNat.testBit (d - 1) then 1 else 0)) where
  low := by have := i.low; rw [Nat.pow_succ]; omega
  high := by have := i.high; rw [Nat.pow_succ]; split <;> omega
  rem_lt := divStep_rem_lt x h64 hp
  identity := divStep_identity h1 h64 i.rem_lt i.identity
  quo := by rw [divStep_quo_toNat, i.quo]; omega

theorem exists_isFullQuotient {d : Nat} {p : DWord} (h1 : 1 ≤ d) (h64 : d ≤ 64) (hp : p.toNat < 2 ^ d) (k : Nat) :
    ∃ q, IsFullQuotient d p k (divIter d p k { rem := p, quo := 1#64 }) q := by
  induction k with
  | zero => exact ⟨1, isFullQuotient_one hp⟩
  | succ k ih =>
    obtain ⟨q, i⟩ := ih
    rw [divIter_succ_last]
    exact ⟨_, i.divStep h1 h64 hp⟩

theorem IsFullQuotient.ne_zero {d k q : Nat} {p : DWord} {x : Division} (i : IsFullQuotient d p k x q) : q ≠ 0 :=
  (Nat.lt_of_lt_of_le (Nat.two_pow_pos k) i.low).ne'

theorem IsFullQuotient.log2 {d k q : Nat} {p : DWord} {x : Division} (i : IsFullQuotient d p k x q) : q.log2 = k :=
  (Nat.log2_eq_iff i.ne_zero).2 ⟨i.low, i.high⟩

/-- For n ≥ d the closed form has a full quotient. -/
theorem modReduce_isFullQuotient {n d : Nat} (poly : DWord) (h1 : 1 ≤ d) (h64 : d ≤ 64) (hn : d ≤ n) :
    ∃ q, IsFullQuotient d (poly &&& mask d) (n - d)
      { rem := (modReduce n poly d).rem, quo := (modReduce n poly d).quo } q := by
  rw [modReduce_eq, if_neg (Nat.not_lt.2 hn)]
  exact exists_isFullQuotient h1 h64 (and_mask_lt poly h64) (n - d)

theorem modReduce_trunc (n : Nat) (poly : DWord) (d : Nat) :
    (modReduce n poly d).trunc = decide (64 ≤ n - d) := by
  rw [modReduce_eq]

theorem modReduce_rem_lt (n : Nat) (poly : DWord) {d : Nat} (h64 : d ≤ 64) :
    (modReduce n poly d).rem.toNat < 2 ^ d := by
  rw [modReduce_eq]
  exact divIter_rem_lt (n - d) _ h64 (and_mask_lt poly h64) (and_mask_lt poly h64)

/-! ### What the closed form reads (42_modreduce.md R129) -/

theorem modReduce_congr {poly poly' : DWord} {d : Nat} (h : poly &&& mask d = poly' &&& mask d) (n : Nat) :
    modReduce n poly d = modReduce n poly' d := by
  rw [modReduce_eq, modReduce_eq, h]

theorem and_mask_congr {v v' : DWord} {d : Nat} (hd : d ≤ 64) (h : ∀ i, i < d → v.getLsbD i = v'.getLsbD i) :
    v &&& mask d = v' &&& mask d := by
  apply BitVec.eq_of_getLsbD_eq
  intro i _
  rw [BitVec.getLsbD_and, BitVec.getLsbD_and, getLsbD_mask hd]
  by_cases hi : i < d
  · rw [h i hi]
  · rw [decide_eq_false hi, Bool.and_false, Bool.and_false]

/-! ### Degree 1 (42_modreduce.md R131) -/

/-- The masked modulus of degree 1 is POLY[0]. -/
theorem and_mask_one (v : DWord) : v &&& mask 1 = if v.getLsbD 0 then 1#64 else 0#64 := by
  apply BitVec.eq_of_toNat_eq
  rw [and_mask_toNat v (by decide), Nat.pow_one]
  cases h : v.getLsbD 0 with
  | true => exact Nat.mod_two_eq_one_iff_testBit_zero.2 ((BitVec.testBit_toNat v).trans h)
  | false => exact Nat.mod_two_eq_zero_iff_testBit_zero.2 ((BitVec.testBit_toNat v).trans h)

/-- Modulus x + 1: the remainder stays 1, so that every iteration appends h = 1. -/
theorem divIter_one_one (k : Nat) : divIter 1 1#64 k { rem := 1#64, quo := 1#64 } =
    { rem := 1#64, quo := BitVec.ofNat 64 (2 ^ (k + 1) - 1) } := by
  induction k with
  | zero => rfl
  | succ k ih =>
    rw [divIter_succ_last, ih]
    refine (Division.mk.injEq ..).mpr ⟨by simp [mask], BitVec.eq_of_toNat_eq ((divStep_quo_toNat 1 1#64 _).trans ?_)⟩
    have hpos := Nat.two_pow_pos (k + 1)
    rw [if_pos (by simp), BitVec.toNat_ofNat, BitVec.toNat_ofNat, Nat.pow_succ 2 (k + 1)]
    omega

/-- Modulus x: the remainder stays 0, so that every iteration appends h = 0. -/
theorem divIter_one_zero (k : Nat) : divIter 1 0#64 k { rem := 0#64, quo := 1#64 } =
    { rem := 0#64, quo := BitVec.ofNat 64 (2 ^ k) } := by
  induction k with
  | zero => rfl
  | succ k ih =>
    rw [divIter_succ_last, ih]
    refine (Division.mk.injEq ..).mpr ⟨by simp [mask], BitVec.eq_of_toNat_eq ((divStep_quo_toNat 1 0#64 _).trans ?_)⟩
    rw [if_neg (by simp), BitVec.toNat_ofNat, BitVec.toNat_ofNat, Nat.pow_succ]
    omega

theorem modReduce_one_of_getLsbD_true {n : Nat} {poly : DWord} (hn : 1 ≤ n) (h : poly.getLsbD 0 = true) :
    modReduce n poly 1 =
      { rem := 1#64, quo := BitVec.ofNat 64 (2 ^ n - 1), trunc := decide (64 ≤ n - 1) } := by
  rw [modReduce_eq, and_mask_one, h, if_pos rfl, if_neg (Nat.not_lt.2 hn), divIter_one_one, Nat.sub_add_cancel hn]

theorem modReduce_one_of_getLsbD_false {n : Nat} {poly : DWord} (hn : 1 ≤ n) (h : poly.getLsbD 0 = false) :
    modReduce n poly 1 =
      { rem := 0#64, quo := BitVec.ofNat 64 (2 ^ (n - 1)), trunc := decide (64 ≤ n - 1) } := by
  rw [modReduce_eq, and_mask_one, h, if_neg Bool.false_ne_true, if_neg (Nat.not_lt.2 hn), divIter_one_zero]

/-! ### Degree 64 (42_modreduce.md R130) -/

theorem mask_sixtyFour : mask 64 = BitVec.allOnes 64 := by decide

theorem divStep_sixtyFour_rem (p : DWord) (x : Division) :
    (divStep 64 p x).rem = (x.rem <<< 1) ^^^ (if x.rem.getLsbD 63 then p else 0#64) := by
  rw [divStep, mask_sixtyFour, BitVec.and_allOnes]

/-- The bit that the 64-bit shift drops is bit 63. -/
theorem two_mul_toNat_eq_dropped_add (v : DWord) :
    2 * v.toNat = (if v.getLsbD 63 then 2 ^ 64 else 0) + (v <<< 1).toNat := by
  have hmsb := BitVec.msb_eq_decide v
  rw [BitVec.msb_eq_getLsbD_last] at hmsb
  rw [hmsb, BitVec.toNat_shiftLeft, Nat.shiftLeft_eq]
  have := v.isLt
  simp only [decide_eq_true_eq]
  split <;> omega

/-! ### The obligations -/

/-- Settles O14: the full quotient of the division gives existence, and the degrees of polynomials give uniqueness. -/
theorem modredRemainderIsExact : Obligations.ModredRemainderIsExact := by
  intro s u d c n m res
  obtain ⟨hrem, hquo, hq⟩ := c.results
  have hmod : m = 2 ^ d.toNat ^^^ (s.regs.poly &&& mask d.toNat).toNat :=
    two_pow_or_eq_xor (and_mask_lt s.regs.poly c.degree_le)
  refine ⟨⟨hrem, hquo, hq⟩, fun hn => ?_, fun hn => ?_⟩
  · obtain ⟨q, i⟩ := modReduce_isFullQuotient s.regs.poly c.degree_pos c.degree_le hn
    have hid := i.identity
    rw [Nat.add_sub_cancel' hn] at hid
    rw [hrem, hquo, hq, hmod, modReduce_trunc, decide_eq_true_iff]
    refine ⟨i.rem_lt, Iff.rfl, q, i.log2, i.ne_zero, hid, i.quo, fun q' r' hr' h => ?_⟩
    exact clmul_remainder_unique (and_mask_lt s.regs.poly c.degree_le) hr' i.rem_lt (h.symm.trans hid)
  · rw [hq, modReduce_trunc, decide_eq_false_iff_not]; omega

/-- Settles O15: QTRUNC says on which side of 2^64 the full quotient is; and x^2 by degree 3, POLY = 3, leaves 3. -/
theorem modredAlgebraicIdentity : Obligations.ModredAlgebraicIdentity := by
  refine ⟨fun s u d c hn => ?_, ?_⟩
  · obtain ⟨-, hexact, -⟩ := modredRemainderIsExact s u d c
    obtain ⟨-, htrunc, q, hlog, hne, hid, hquo, -⟩ := hexact hn
    rw [Nat.one_shiftLeft, Nat.one_shiftLeft]
    refine ⟨fun hq => ?_, fun hq => ⟨q, hquo, ?_, hid.symm⟩⟩
    · have hshort : s.regs.n.toNat - d.toNat < 64 :=
        Nat.not_le.1 fun h => Bool.false_ne_true (hq.symm.trans (htrunc.2 h))
      have hlt : q < 2 ^ 64 := (Nat.log2_lt hne).1 (hlog ▸ hshort)
      rw [hquo, Nat.mod_eq_of_lt hlt, hid]
    · exact (Nat.le_log2 hne).1 (hlog ▸ htrunc.1 hq)
  · exact ⟨{ State.reset with regs := { Regs.reset with poly := 3#64, n := 2#32 }, inputs := [.engine] }, _,
      ⟨by decide, by decide, rfl, rfl, ⟨[], rfl⟩, ⟨_, rfl, rfl⟩⟩, by decide, by decide⟩

/-- Settles O17: the masked modulus is 1 or 0, and the iterations of each are known in closed form. -/
theorem modredDegreeOne : Obligations.ModredDegreeOne := by
  refine ⟨fun s u c => ?_, by decide +kernel⟩
  obtain ⟨hrem, hquo, -⟩ := c.results
  refine ⟨?_, fun hn h => ⟨fun k => ?_, ?_, ?_⟩, fun hn h => ⟨?_, ?_⟩⟩
  · have hlt := modReduce_rem_lt s.regs.n.toNat s.regs.poly c.degree_le
    rw [← hrem] at hlt
    change u.regs.rem.toNat < 2 at hlt
    bv_omega
  · rw [and_mask_one, h, if_pos rfl, divIter_one_one]; simp
  · exact hrem.trans (congrArg DivResult.rem (modReduce_one_of_getLsbD_true hn h))
  · exact hquo.trans (congrArg DivResult.quo (modReduce_one_of_getLsbD_true hn h))
  · exact hrem.trans (congrArg DivResult.rem (modReduce_one_of_getLsbD_false hn h))
  · exact hquo.trans (congrArg DivResult.quo (modReduce_one_of_getLsbD_false hn h))

/-- Settles O19: the results are the closed form, and that reads POLY under the mask alone. -/
theorem modredDependsOnMaskedOperandsOnly : Obligations.ModredDependsOnMaskedOperandsOnly := by
  intro s s' u u' d c c' hn hpoly
  obtain ⟨hrem, hquo, hq⟩ := c.results
  obtain ⟨hrem', hquo', hq'⟩ := c'.results
  have hres : modReduce s.regs.n.toNat s.regs.poly d.toNat = modReduce s'.regs.n.toNat s'.regs.poly d.toNat := by
    rw [hn, modReduce_congr (and_mask_congr c.degree_le hpoly)]
  exact ⟨by rw [hrem, hrem', hres], by rw [hquo, hquo', hres], by rw [hq, hq', hres]⟩

/-- Settles O18: the mask drops nothing, and the example by evaluation. -/
theorem modredDegreeSixtyFour : Obligations.ModredDegreeSixtyFour :=
  ⟨mask_sixtyFour, fun p x => ⟨divStep_sixtyFour_rem p x, two_mul_toNat_eq_dropped_add x.rem⟩, by decide +kernel⟩

/-- Settles O20, by evaluation of the machine from the example's state. -/
theorem modredWorkedExamples : Obligations.ModredWorkedExamples :=
  ⟨⟨_, rfl, by decide, ⟨_, rfl, by decide⟩, ⟨_, rfl, by decide⟩, ⟨_, rfl, by decide⟩, ⟨_, rfl, by decide⟩,
    ⟨_, rfl, by decide⟩⟩, by decide +kernel⟩

end Sys2Proof.Machine
end

section
/-! PROOFS. The errors of 60_exceptions.md: the one a CMD write reports (R144), and the bus errors by their causes (R145). -/

namespace Sys2Proof.Machine

/-! ### The first fault of a command word (60_exceptions.md R144) -/

/-- `check` of the spec by the numbers of the word's fields (30_encoding.md R71, R78). -/
theorem check_eq_of_numbers (c : Word) (r : Regs) : check c r =
    if r.busy = true then .busy
    else if c.toNat % 16 ≠ 1 ∧ c.toNat % 16 ≠ 2 then .illop
    else if (c.toNat / 16384 ≠ 0 ∨ c.toNat / 2048 % 2 ≠ 0) ∨ (c.toNat % 16 = 1 ∧ c.toNat / 4096 % 4 ≠ 0) then .rsvd
    else if c.toNat % 16 = 1 ∧ (c.toNat / 16 % 128 = 0 ∨ 64 < c.toNat / 16 % 128) then .baddeg
    else if c.toNat % 16 = 2 ∧ (c.toNat / 16 % 128 = 0 ∨ 64 < c.toNat / 16 % 128) then .badwid
    else if c.toNat % 16 = 2 ∧ c.toNat / 4096 % 4 = 3 then .badsrc
    else .none := by
  rw [check, ← ite_or]
  simp [← BitVec.toNat_inj, fieldOpc_toNat, fieldSize_toNat, fieldBit11_toNat, fieldSrc_toNat, fieldHigh_toNat]

/-- What the registers show after a CMD write from ERR = 0: the command in flight for the code 0, else the code recorded. -/
def Reports (r : Regs) : ErrorCode → Prop
  | .none => r.err = false ∧ r.busy = true
  | code => r.err = true ∧ r.ecode = code

theorem reports_record {code : ErrorCode} {r : Regs} (hne : code ≠ .none) (herr : r.err = false) :
    Reports (record code r) code := by
  have hecode : (record code r).ecode = code := by rw [record_ecode, herr, if_neg Bool.false_ne_true]
  cases code with
  | none => exact absurd rfl hne
  | _ => exact ⟨rfl, hecode⟩

theorem reports_accept (c : Word) {r : Regs} (herr : r.err = false) : Reports (accept c r) .none := by
  unfold accept
  split
  · rw [modredAccept_eq]
    exact ⟨herr, rfl⟩
  · exact ⟨herr, rfl⟩

/-- A CMD write reports what `check` answers (40_host_access.md R95). -/
theorem reports_commandRegs (c : Word) {r : Regs} (herr : r.err = false) : Reports (commandRegs c r) (check c r) := by
  rw [commandRegs_eq_cmdWriteRegs]
  by_cases hok : check c r = .none
  · rw [cmdWriteRegs_accepted hok, hok]
    exact reports_accept c herr
  · rw [cmdWriteRegs_rejected rfl hok]
    exact reports_record hok herr

/-! ### Bus errors (60_exceptions.md R145) -/

/-- Misaligned or unmapped: the offsets at which `locate` finds no register (`locate_cases`). -/
abbrev BadOffset (off : Offset) : Prop := off.toNat % 4 ≠ 0 ∨ off.toNat = 0x1C ∨ 0x40 ≤ off.toNat

/-- The offsets of the registers a host cannot write, ID and the result words (20_memory.md R60). -/
abbrev ReadOnlyOffset (off : Offset) : Prop := off.toNat = 0x00 ∨ (0x28 ≤ off.toNat ∧ off.toNat ≤ 0x3C)

/-- The causes of a bus error for a write: misaligned or unmapped, strobes, read-only (60_exceptions.md R145). -/
abbrev WriteCause (off : Offset) (strb : Strobes) : Prop := BadOffset off ∨ strb ≠ 0b1111#4 ∨ ReadOnlyOffset off

theorem RegName.not_badOffset (g : RegName) : ¬ BadOffset g.offset := by
  cases g with
  | operand o => cases o <;> decide
  | result w => cases w <;> decide
  | _ => decide

/-- A register's offset is read-only exactly when a full-word write to it is refused (20_memory.md R60). -/
theorem writeAccess_cases (g : RegName) (v : Word) :
    (writeAccess g v = .error .readOnly ∧ ReadOnlyOffset g.offset) ∨
      ((∃ a, writeAccess g v = .ok a) ∧ ¬ ReadOnlyOffset g.offset) := by
  cases g with
  | id => exact .inl ⟨rfl, by decide⟩
  | result w => exact .inl ⟨rfl, by cases w <;> decide⟩
  | operand o => exact .inr ⟨⟨_, rfl⟩, by cases o <;> decide⟩
  | _ => exact .inr ⟨⟨_, rfl⟩, by decide⟩

/-- A write raises a bus error exactly with a cause; without one it is a full-word write to a writable register. -/
theorem route_write_cases (off : Offset) (v : Word) (strb : Strobes) :
    ((∃ e, route (.write off v strb) = .error e) ∧ WriteCause off strb) ∨
      ((∃ g a, off = RegName.offset g ∧ strb = 0b1111#4 ∧ writeAccess g v = .ok a) ∧ ¬ WriteCause off strb) := by
  rcases locate_cases off with ⟨g, hg, rfl⟩ | ⟨e, he, hbad⟩
  · by_cases hstrb : strb = 0b1111#4
    · subst hstrb
      rw [route_write]
      rcases writeAccess_cases g v with ⟨herror, hro⟩ | ⟨⟨a, ha⟩, hrw⟩
      · exact .inl ⟨⟨_, herror⟩, .inr (.inr hro)⟩
      · refine .inr ⟨⟨g, a, rfl, rfl, ha⟩, ?_⟩
        rintro (hbad | hstrb | hro)
        · exact g.not_badOffset hbad
        · exact hstrb rfl
        · exact hrw hro
    · refine .inl ⟨⟨.strobes, ?_⟩, .inr (.inl hstrb)⟩
      simp [route, hg, hstrb]
  · refine .inl ⟨⟨e, ?_⟩, .inl hbad⟩
    rw [route, he]

/-- A bus error is answered and changes no register (20_memory.md R58). -/
theorem step_busError {s : State} {rest : List Event} {t : Transaction} {e : BusError} (h : route t = .error e)
    (hr : s.inReset = false) (hi : s.inputs = .host t :: rest) :
    step s = .next (s.answered rest s.regs (errorResponse t)) := by
  rw [step_host hr hi, hostRegs, hostAnswer, h]

/-! ### The obligations -/

/-- Settles O8: the CMD write reports what `check` answers, and `check` by the fields' numbers is the order of R144. -/
theorem firstFaultIsReported : Obligations.FirstFaultIsReported := by
  refine ⟨fun s t rest c hr herr hi hstep => ?_, by decide, by decide, by decide⟩
  rw [step_cmdWrite hr hi] at hstep
  cases hstep
  have hreports := reports_commandRegs c herr
  rw [check_eq_of_numbers] at hreports
  simp only [apply_ite (Reports _)] at hreports
  exact hreports

/-- Settles O36: `route` refuses exactly the transactions with a cause, and a refusal only answers. -/
theorem busErrorsChangeNothing : Obligations.BusErrorsChangeNothing := by
  intro s rest off hr
  refine ⟨fun hi hbad => ?_, fun v strb hi => ?_⟩
  · rw [step_read hr hi, expectedRead_badOffset hbad]
  · rcases route_write_cases off v strb with ⟨⟨e, herror⟩, hcause⟩ | ⟨⟨g, a, rfl, rfl, ha⟩, hfree⟩
    · exact ⟨fun _ => step_busError herror hr hi, fun hnone => absurd hcause hnone⟩
    · exact ⟨fun hcause => absurd hcause hfree, fun _ => ⟨_, step_write ha hr hi⟩⟩

end Sys2Proof.Machine
end

section
/-! PROOFS. Several blocks on a platform (60_exceptions.md R155): which block an address reaches, what an event leaves of the
others, and the reset they share. -/

namespace Sys2Proof.Machine

/-! ### The frame of one block's step -/

/-- Only the block at the place k may differ, and no window moves. -/
structure OnlyBlockChanges (k : Nat) (p p' : Platform) : Prop where
  bases : p'.map (fun b => b.base) = p.map (fun b => b.base)
  others : ∀ j : Nat, j ≠ k → p'[j]? = p[j]?

theorem Platform.stepBlock_onlyBlockChanges {p p' : Platform} {k : Nat} {f : State → Result}
    (h : p.stepBlock k f = .next p') : OnlyBlockChanges k p p' := by
  rcases Platform.stepBlock_eq_next h with rfl | ⟨b, t, hb, -, rfl⟩
  · exact ⟨rfl, fun _ _ => rfl⟩
  · obtain ⟨hk, rfl⟩ := List.getElem?_eq_some_iff.1 hb
    refine ⟨?_, fun j hj => List.getElem?_set_ne hj.symm⟩
    have hk' : k < (p.map fun b => b.base).length := by rwa [List.length_map]
    rw [List.map_set, ← List.getElem_map _ (h := hk')]
    exact List.set_getElem_self hk'

theorem Platform.irqs_getElem? (p : Platform) (j : Nat) : p.irqs[j]? = p[j]?.map fun b => irq b.state.regs :=
  List.getElem?_map

theorem OnlyBlockChanges.block_and_irq {k j : Nat} {p p' : Platform} (h : OnlyBlockChanges k p p') (hj : j ≠ k) :
    p'[j]? = p[j]? ∧ p'.irqs[j]? = p.irqs[j]? := by
  rw [Platform.irqs_getElem?, Platform.irqs_getElem?, h.others j hj]
  exact ⟨rfl, rfl⟩

/-! ### Which block an address reaches (20_memory.md R50) -/

theorem Platform.step_access_none {p : Platform} {h : HostAccess} (hroute : p.route h.address = none) :
    p.step (.access h) = .next p := by
  rw [Platform.step, hroute]

theorem Platform.step_access_some {p : Platform} {h : HostAccess} {r : Nat × Offset}
    (hroute : p.route h.address = some r) : p.step (.access h) = p.stepBlock r.1 (hostStep (h.atOffset r.2)) := by
  rw [Platform.step, hroute]

theorem Platform.route_eq_none {p : Platform} {a : Nat} (h : ∀ b ∈ p, a < b.base ∨ b.base + 256 ≤ a) :
    p.route a = none := by
  induction p with
  | nil => rfl
  | cons b p ih =>
    rw [List.forall_mem_cons] at h
    rw [Platform.route_cons, windowOffset_eq_none.2 h.1, ih h.2]
    rfl

/-- An address of one window lies outside every window apart from it. -/
theorem hostAddress_outside {base base' : Nat} (h : base + 256 ≤ base' ∨ base' + 256 ≤ base) (off : Offset) :
    hostAddress base' off < base ∨ base + 256 ≤ hostAddress base' off := by
  have := off.isLt
  unfold hostAddress
  omega

theorem Platform.route_hostAddress {p : Platform} (hp : p.windowsApart) {k : Nat} {b : Block} (hk : p[k]? = some b)
    (off : Offset) : p.route (hostAddress b.base off) = some (k, off) := by
  induction p generalizing k with
  | nil => simp at hk
  | cons b₀ p ih =>
    obtain ⟨hapart, hp⟩ := List.pairwise_cons.1 hp
    rw [Platform.route_cons]
    cases k with
    | zero =>
      obtain rfl : b₀ = b := by simpa using hk
      rw [windowOffset_eq_some.2 rfl]
    | succ k =>
      have hk : p[k]? = some b := by simpa using hk
      have houtside := hostAddress_outside (hapart b (List.mem_of_getElem? hk)) off
      rw [windowOffset_eq_none.2 houtside, ih hp hk]
      rfl

/-- An access at an address of a block's window is the step that block takes with the transaction scheduled first. -/
theorem Platform.step_access_at {p : Platform} (hp : p.windowsApart) {k : Nat} {b : Block} (hk : p[k]? = some b)
    {off : Offset} {h : HostAccess} (ha : h.address = hostAddress b.base off) {t : State}
    (hstep : Machine.step { b.state with inputs := .host (h.atOffset off) :: b.state.inputs } = .next t) :
    p.step (.access h) = .next (p.set k { b with state := t }) := by
  rw [Platform.step_access_some (r := (k, off)) (by rw [ha, Platform.route_hostAddress hp hk off])]
  rw [step_hostTurn rfl] at hstep
  exact Platform.stepBlock_at hk hstep

/-! ### The obligations -/

/-- Settles O53: `route` finds the one window that holds the address, and the block's own host step follows. -/
theorem addressesReachTheirBlock : Obligations.AddressesReachTheirBlock := by
  intro p hp
  refine ⟨fun k b off t hk => ⟨Platform.route_hostAddress hp hk off, ?_, fun v strb => ?_⟩, fun h houtside => ?_⟩
  · exact Platform.step_access_at (h := .read _) hp hk rfl
  · exact Platform.step_access_at (h := .write _ v strb) hp hk rfl
  · exact Platform.step_access_none (Platform.route_eq_none houtside)

/-- Settles O52: an event of one block changes that block alone, and a reset of all moves no window. -/
theorem blocksAreIndependent : Obligations.BlocksAreIndependent := by
  intro p p' e hstep
  cases e with
  | block k =>
    have hframe := Platform.stepBlock_onlyBlockChanges hstep
    exact ⟨hframe.bases, fun j hj => hframe.block_and_irq hj⟩
  | access h =>
    cases hroute : p.route h.address with
    | none =>
      rw [Platform.step_access_none hroute] at hstep
      cases hstep
      exact ⟨rfl, fun _ _ => ⟨rfl, rfl⟩⟩
    | some r =>
      rw [Platform.step_access_some hroute] at hstep
      have hframe := Platform.stepBlock_onlyBlockChanges hstep
      exact ⟨hframe.bases, fun j hj => hframe.block_and_irq (hj r hroute)⟩
  | assertReset =>
    cases hstep
    exact ⟨List.map_map, fun _ hj => hj.elim⟩
  | releaseReset =>
    cases hstep
    exact ⟨List.map_map, fun _ hj => hj.elim⟩

/-- Settles O54: reset acts on every block of the list, and its release keeps the reset values. -/
theorem blocksStartTogether : Obligations.BlocksStartTogether := by
  refine ⟨fun bases k base hk => ?_, fun p => ⟨_, _, rfl, rfl, ?_, ?_, ?_⟩⟩
  · rw [Platform.reset, List.getElem?_map, hk]
    rfl
  · rw [List.length_map, List.length_map]
  · exact List.forall_mem_map.2 fun b _ => ⟨rfl, rfl⟩
  · exact List.forall_mem_map.2 (List.forall_mem_map.2 fun b _ => ⟨rfl, rfl⟩)

end Sys2Proof.Machine
end

section
/-! PROOFS. Reset (70_reset_and_hazards.md): the values it leaves (R160), both ways to it (R163), and what a block does while it is
asserted (R162). -/

namespace Sys2Proof.Machine

/-! ### The events of reset (70_reset_and_hazards.md R161, R162) -/

theorem step_assertReset {s : State} {rest : List Event} (hi : s.inputs = .assertReset :: rest) :
    step s = .next (holdReset (s.setInputs rest)) := by
  rw [step, advance, hi]; rfl

theorem step_releaseReset {s : State} {rest : List Event} (hi : s.inputs = .releaseReset :: rest) :
    step s = .next (leaveReset (s.setInputs rest)) := by
  rw [step, advance, hi]; rfl

/-! ### The block while reset is asserted (70_reset_and_hazards.md R162) -/

theorem pready_inReset {s : State} (hr : s.inReset = true) : pready s = none := if_pos hr

theorem engineStep_inReset {s : State} (hr : s.inReset = true) : engineStep s = .next s := by
  simp [engineStep, hr]

/-- A clock edge in reset performs no transaction: it is refused, or holds the reset, or ends it. -/
theorem clockEdge_inReset (p : Pins) {s : State} (hr : s.inReset = true) :
    clockEdge p s = if p.psel then .refused .transactionDuringReset
      else if p.rstN then .next (leaveReset s) else .next (holdReset s) := by
  simp [clockEdge, hr]

theorem step_edge_inReset {s : State} {rest : List Event} {p : Pins} (hr : s.inReset = true)
    (hi : s.inputs = .edge p :: rest) :
    step s = if p.psel then .refused .transactionDuringReset
      else if p.rstN then .next (leaveReset (s.setInputs rest)) else .next (holdReset (s.setInputs rest)) := by
  rw [step, advance, hi]
  exact clockEdge_inReset p (s := s.setInputs rest) hr

/-! ### The obligations -/

/-- Settles O44: the assertion of `rst_n` and SRST both put `Regs.reset` in place, and its fields give the host-visible words. -/
theorem resetSetsEveryRegister : Obligations.ResetSetsEveryRegister := by
  refine ⟨fun s rest hi => step_assertReset hi, fun s rest v hr h9 hi => ?_, rfl, rfl, by decide⟩
  rw [step_ctrlWrite hr hi, ctrlWrite_srst _ h9]

/-- Settles O45, event by event; an edge in reset by `psel` and then `rst_n`. -/
theorem nothingRunsInReset : Obligations.NothingRunsInReset := by
  intro s rest hr
  refine ⟨pready_inReset hr, fun hi => ?engine, fun tr hi => ?host, fun p hi => ?edge, step_releaseReset⟩
  case engine => rw [step_engineTurn hi]; exact engineStep_inReset hr
  case host => rw [step_hostTurn hi]; exact hostStep_inReset tr hr
  case edge =>
    rw [step_edge_inReset hr hi]
    refine ⟨fun hsel => ?_, fun hsel hrst => ?_, fun hsel hrst => ?_⟩
    · rw [if_pos hsel]
    · rw [hsel, hrst]; rfl
    · rw [hsel, hrst]; rfl

/-- Settles O47: the case of the empty schedule. -/
theorem resetMeetsInvariant : Obligations.ResetMeetsInvariant := reset_withInputs_inv []

end Sys2Proof.Machine
end

section
/-! PROOFS. The documented command words (95_test_vectors.md E-01 to E-11). -/

namespace Sys2Proof

/-- Settles O3: each word is its command's encoding (30_encoding.md R76, R77), and a command's encoding decodes to it. -/
theorem documentedWordsDecode : Obligations.DocumentedWordsDecode := by
  unfold Obligations.DocumentedWordsDecode
  simp only [decode_eq_ok_iff]
  decide

end Sys2Proof
end
